-- ==== Sys2Proof/Word.lean ====
section
/-! DEFINITION. The bit-vector types of the block: octets and 32-bit words (00_scope.md R8, R11). -/

namespace Sys2Proof

/-- An Octet: an 8-bit unsigned value, bit 7 the high-order term (R8, R11). -/
abbrev Byte := BitVec 8

/-- A 32-bit word: what one bus access carries (R52), a command (R80), a 4-byte Word (R65), a limb (R54). -/
abbrev Word := BitVec 32

end Sys2Proof
end

