-- ==== Sys2Proof/Config.lean ====
section
/-! DEFINITION. The parameters and wired constants of R6, the names of the engines and agents, and the one free value of the
model: which events come next where the state does not say (R34, log 1). The width `W` is no constant: it is an argument of the
model (R6, log 6), and what depends on it says so in its type. -/

namespace Sys2Proof

/-- The two engines of R2, each with a bank of registers of its own. -/
inductive Engine where
  /-- GF256Engine. -/
  | gf
  /-- PrimeFieldEngine. -/
  | pf
  deriving DecidableEq, Repr, Inhabited

/-- The agents of R34. R60 and D34 allow several hosts on the bus, so a host has a number (log 2). -/
inductive Agent where
  | host (n : Nat)
  | engine (e : Engine)
  deriving DecidableEq, Repr, Inhabited

/-- What can happen next: an agent has its turn (R34), or the reset input is asserted and released (R200). -/
inductive Event where
  | turn (a : Agent)
  | reset
  deriving DecidableEq, Repr, Inhabited

/-- The widths `W` that R6 allows: the multiples of 32 from 32 to 4096. -/
abbrev Config.IsWidth (W : Nat) : Prop := 32 ∣ W ∧ 32 ≤ W ∧ W ≤ 4096

/-- `NL`, the number of 32-bit limbs of a PF register of width `W` (R6). -/
abbrev Config.NL (W : Nat) : Nat := W / 32

/-- `POLY`, the reduction polynomial x^8+x^4+x^3+x+1, nine bits (R6, R33). -/
def Config.poly : BitVec 9 := 0x11B#9

/-- `SEED`, the position-0 value of the R_CON recurrence (R6, R103). -/
def Config.seed : Byte := 0x8D#8

/-- `RCMAX`, the last used byte index of `GF_RCBUF` and the largest count (R6). -/
def Config.rcMax : Nat := 255

/-- `BASE`, the bus address of offset 0: OPEN, the platform's (R6, D5, log 7). No step depends on it. -/
opaque Config.base : Nat

/-- The bus address of an offset (R6: every address of the spec is an offset from `BASE`). -/
def Config.busAddress (off : BitVec 12) : Nat := Config.base + off.toNat

/-- FREE VALUE (log 1): the events of block `k`, which come when the state's own list of events is exhausted, before the turn
that the block owes (`Config.due`). R34: any enabled step of any agent may be the next to happen; R200: reset may come at any
time. -/
opaque Config.between : Nat → List Event

/-- The engine whose turn ends block `k`: each engine in every second block, so that in every run each has infinitely many turns.
This is the weak fairness R212 assumes, and nothing more: the block before the turn may be as long as it likes (log 11). -/
def Config.due (k : Nat) : Engine := if k % 2 = 0 then .gf else .pf

/-- The value of a PF register: `W` bits (R23). -/
abbrev PfWord (W : Nat) := BitVec W

end Sys2Proof
end

