-- ==== Sys2Proof/Syntax.lean ====
section
/-! DEFINITION. The commands of CPG-CORE: one constructor per row of the opcode table (30_encoding.md R84). -/

namespace Sys2Proof

/-- A command. The only operand that travels in a command word is the count of GENRCON (R82); every other operand is in a
register that the command fixes (R21, R23). -/
inductive Instr where
  /-- XTIME: one doubling step in GF(2^8) (R101). -/
  | xtime
  /-- GENRCON: generate `count` elements of the R_CON sequence (R105); the count is the 8-bit field `CNT`. -/
  | genrcon (count : BitVec 8)
  /-- ROTWORD: rotate a 4-byte word left by one byte (R109). -/
  | rotword
  /-- ADD (R133). -/
  | add
  /-- SUB (R135). -/
  | sub
  /-- MUL (R137). -/
  | mul
  /-- MULINV: the modular inverse (R139). -/
  | mulinv
  /-- DIV: the field quotient (R143). -/
  | div
  /-- ISPRIME: the primality test (R148). -/
  | isprime
  deriving DecidableEq, Repr

/-- The engine whose command register a command's word must be written to (R84, column "to"). -/
def Instr.engine : Instr → Engine
  | .xtime => .gf
  | .genrcon _ => .gf
  | .rotword => .gf
  | .add => .pf
  | .sub => .pf
  | .mul => .pf
  | .mulinv => .pf
  | .div => .pf
  | .isprime => .pf

end Sys2Proof
end

