-- ==== Sys2Proof/WellFormed.lean ====
section
/-! DEFINITION. What a well-formed command is: it stands in the command register of its own engine (R81, R84). The count of
GENRCON needs no check: its field has exactly the eight bits of `CNT`, and a count of 0 is a legal word (R82). -/

namespace Sys2Proof

/-- A command `i` in the command register of engine `e` is well formed when `e` is the engine of its row (R81: the GF commands
are legal only in `GF_CMD`, the PF commands only in `PF_CMD`). -/
abbrev WellFormed (e : Engine) (i : Instr) : Prop := i.engine = e

end Sys2Proof
end

