-- ==== Sys2Proof/Decode.lean ====
section
/-! DEFINITION. Decoding a command word (30_encoding.md R80 to R86), total on every word of either engine and refusing by name;
then the encoder and the rows of the opcode table (R84). -/

namespace Sys2Proof

/-- Why a word is no command of its engine (R86). The machine completes each with `IllegalCommand` alike; the names are the
model's (log 17). -/
inductive Illegal where
  /-- `ZERO != 0`. -/
  | zeroField
  /-- The opcode is a command of the other engine. -/
  | otherEngine
  /-- The opcode is reserved on both engines. -/
  | reservedOpcode
  /-- `CNT != 0` in a command that takes no count. -/
  | countField
  deriving DecidableEq, Repr

/-- `OPC`, bits 7:0 (R80). -/
def opcField (c : Word) : BitVec 8 := c.extractLsb' 0 8

/-- `CNT`, bits 15:8, unsigned, used as it stands (R80, R82). -/
def cntField (c : Word) : BitVec 8 := c.extractLsb' 8 8

/-- `ZERO`, bits 31:16 (R80). -/
def zeroField (c : Word) : BitVec 16 := c.extractLsb' 16 16

/-- A command that takes no count: `CNT` must be 0 (R82, R86). -/
def withoutCount (cnt : BitVec 8) (i : Instr) : Except Illegal Instr :=
  if cnt = 0#8 then .ok i else .error .countField

/-- The commands of the GF engine, by `OPC` (R81, R85). -/
def decodeGf (opc cnt : BitVec 8) : Except Illegal Instr :=
  if opc = 0x01#8 then withoutCount cnt .xtime
  else if opc = 0x02#8 then .ok (.genrcon cnt)
  else if opc = 0x03#8 then withoutCount cnt .rotword
  else if 0x10#8 ≤ opc ∧ opc ≤ 0x15#8 then .error .otherEngine
  else .error .reservedOpcode

/-- The commands of the PF engine, by `OPC` (R81, R85). -/
def decodePf (opc cnt : BitVec 8) : Except Illegal Instr :=
  if opc = 0x10#8 then withoutCount cnt .add
  else if opc = 0x11#8 then withoutCount cnt .sub
  else if opc = 0x12#8 then withoutCount cnt .mul
  else if opc = 0x13#8 then withoutCount cnt .mulinv
  else if opc = 0x14#8 then withoutCount cnt .div
  else if opc = 0x15#8 then withoutCount cnt .isprime
  else if 0x01#8 ≤ opc ∧ opc ≤ 0x03#8 then .error .otherEngine
  else .error .reservedOpcode

/-- R85: decoding looks at the word and at which engine holds it, and at nothing else. -/
def decode (e : Engine) (c : Word) : Except Illegal Instr :=
  if zeroField c = 0#16 then
    match e with
    | .gf => decodeGf (opcField c) (cntField c)
    | .pf => decodePf (opcField c) (cntField c)
  else .error .zeroField

/-- The operation code of a command (R84). -/
def Instr.opcode : Instr → BitVec 8
  | .xtime => 0x01#8
  | .genrcon _ => 0x02#8
  | .rotword => 0x03#8
  | .add => 0x10#8
  | .sub => 0x11#8
  | .mul => 0x12#8
  | .mulinv => 0x13#8
  | .div => 0x14#8
  | .isprime => 0x15#8

/-- The count a command's word carries: the count of GENRCON, 0 for every other command (R82). -/
def Instr.countBits : Instr → BitVec 8
  | .genrcon count => count
  | .xtime => 0#8
  | .rotword => 0#8
  | .add => 0#8
  | .sub => 0#8
  | .mul => 0#8
  | .mulinv => 0#8
  | .div => 0#8
  | .isprime => 0#8

/-- The word of a command, format `C`: `ZERO`, `CNT`, `OPC` (R80). -/
def encode (i : Instr) : Word := 0#16 ++ i.countBits ++ i.opcode

/-- One row of the opcode table: which engine's command register, mask and match (R84). -/
structure OpcodeRow where
  mnemonic : String
  engine : Engine
  mask : Word
  pattern : Word
  deriving DecidableEq, Repr

/-- The opcode table of R84, row for row. -/
def opcodeTable : List OpcodeRow :=
  [⟨"XTIME", .gf, 0xFFFFFFFF#32, 0x00000001#32⟩,
   ⟨"GENRCON", .gf, 0xFFFF00FF#32, 0x00000002#32⟩,
   ⟨"ROTWORD", .gf, 0xFFFFFFFF#32, 0x00000003#32⟩,
   ⟨"ADD", .pf, 0xFFFFFFFF#32, 0x00000010#32⟩,
   ⟨"SUB", .pf, 0xFFFFFFFF#32, 0x00000011#32⟩,
   ⟨"MUL", .pf, 0xFFFFFFFF#32, 0x00000012#32⟩,
   ⟨"MULINV", .pf, 0xFFFFFFFF#32, 0x00000013#32⟩,
   ⟨"DIV", .pf, 0xFFFFFFFF#32, 0x00000014#32⟩,
   ⟨"ISPRIME", .pf, 0xFFFFFFFF#32, 0x00000015#32⟩]

/-- The row's test: "a word `c` is the command of a row when `c & mask = match`" and it stands in the row's register (R84). -/
def OpcodeRow.covers (r : OpcodeRow) (e : Engine) (c : Word) : Bool :=
  r.engine == e && c &&& r.mask == r.pattern

/-- The name of a command in the opcode table (R84). -/
def Instr.mnemonic : Instr → String
  | .xtime => "XTIME"
  | .genrcon _ => "GENRCON"
  | .rotword => "ROTWORD"
  | .add => "ADD"
  | .sub => "SUB"
  | .mul => "MUL"
  | .mulinv => "MULINV"
  | .div => "DIV"
  | .isprime => "ISPRIME"

/-- The 32-bit command word of an instruction whose low `nbits` bits are those of `w` and whose other bits are 0: a command is
one 32-bit value on the bus and has no bytes to lay out (R53, log 17). -/
def tableWord (nbits w : Nat) : Word := BitVec.ofNat 32 (w % 2 ^ nbits)

/-- The engine whose command register a table word is for: the GF engine where the word is one of its commands, else the PF
engine (R84; the opcodes of the two engines are disjoint, R81). -/
def engineOfTableWord (c : Word) : Engine :=
  match decode .gf c with
  | .ok _ => .gf
  | .error _ => .pf

/-- The host's question of the decoder: the instruction of the bits `w`, none where neither engine accepts the word. -/
def decodeTableWord (nbits w : Nat) : Option Instr :=
  let c := tableWord nbits w
  match decode (engineOfTableWord c) c with
  | .ok i => some i
  | .error _ => none

end Sys2Proof
end

