-- ==== Sys2Proof/Machine/State.lean ====
section
/-! DEFINITION. The state of CPG-CORE (10_state.md R20): the two banks, all the architectural state there is, and beside them
what stands outside the block and decides what happens next (the hosts' scripts and the order of events), held as plain data.
Reset values are R39's. The width `W` of the PF registers is a parameter of the types (R6, R33, log 6). -/

namespace Sys2Proof.Machine

open Sys2Proof

/-- A status register (R27). Bits 3 and 31:7 always read 0 and are never written, so they have no storage; `Status.word`
(Flags.lean) is the 32-bit value a read returns (log 8). -/
structure Status where
  /-- bit 0 -/
  busy : Bool
  /-- bit 1 -/
  done : Bool
  /-- bit 2 -/
  err : Bool
  /-- bits 6:4 -/
  ecode : BitVec 3
  deriving DecidableEq, Repr

/-- The contents of `GF_RCBUF` (R30): pairs of a byte index and a byte, in one canonical form (`Memory.wf`, Ops.lean). An
index that is not listed reads 0x00, the reset contents of R39 (log 9). -/
abbrev Memory := List Host.Cell

/-- The GF bank (R20, R21). -/
structure GfBank where
  /-- `GF_CMD` -/
  cmd : Word
  /-- `GF_STATUS` -/
  status : Status
  /-- `GF_IN` -/
  input : Word
  /-- `GF_OUT` -/
  out : Word
  /-- `GF_RCLEN[7:0]`; bits 31:8 always read 0 (R29, log 8) -/
  rclen : BitVec 8
  /-- `GF_RCBUF` -/
  rcbuf : Memory
  deriving DecidableEq, Repr

/-- The PF bank (R20, R23). -/
structure PfBank (W : Nat) where
  /-- `PF_CMD` -/
  cmd : Word
  /-- `PF_STATUS` -/
  status : Status
  /-- `PF_A` -/
  a : PfWord W
  /-- `PF_B` -/
  b : PfWord W
  /-- `PF_P`, the modulus -/
  p : PfWord W
  /-- `PF_R` -/
  r : PfWord W
  deriving DecidableEq, Repr

/-- One bus access by a host (R56, R57), of any width in bits and at any offset of the 4096 bytes (R50); what is refused is
R58's affair. The data of a write of another width than 32 bits is never looked at (log 15). -/
inductive Access where
  | read (width : Nat) (off : BitVec 12)
  | write (width : Nat) (off : BitVec 12) (v : Word)
  deriving DecidableEq, Repr

/-- One line of a host script: an access (R89), or the notation's one waiting construct `WAIT` (R90). -/
inductive HostOp where
  | access (a : Access)
  | wait (e : Engine)
  deriving DecidableEq, Repr

/-- What the bus gives back for an access. -/
inductive Reply where
  /-- A read was performed and returned this value (R56). -/
  | value (v : Word)
  /-- A write was performed (R57). -/
  | written
  /-- The access was refused (R58, R174). -/
  | busError
  deriving DecidableEq, Repr

/-- A host on the bus: the accesses it still has to make, the next one first, and the replies it has had, the oldest first.
The model's own: R33 counts the host's sequence of accesses among the inputs of a step, not the state (log 2). -/
structure HostPort where
  script : List HostOp
  replies : List Reply
  deriving DecidableEq, Repr

/-- The machine of width `W`; `State` alone is the instance 256 of R6, the one the fixed names speak of (log 6). `gf` and `pf` are
the whole architectural state (R20). `hosts`, `events` and `tick` are the model's own: the hosts' scripts (log 2), whose turn it is
next (log 1), and the counter of the free value `Config.between` (log 1). -/
structure State (W : Nat := 256) where
  gf : GfBank
  pf : PfBank W
  hosts : List HostPort
  events : List Event
  tick : Nat
  deriving DecidableEq, Repr

/-- Nothing stops this machine: every command word and every operand value has a stated outcome (R12), an error is a code in a
status register and no trap (R172, R177), and a refused access is a reply to the host that changes nothing (R58, R174). So
there is no fault to raise (log 13): safe, since no step of the model ends in one. -/
inductive Fault where
  deriving DecidableEq, Repr

/-- Why `exec` refuses an instruction. -/
inductive Refusal where
  /-- Raised by an arm of `exec` whose instruction has no meaning yet; no arm is left in that state. Safe: the model stops. -/
  | notModelled (mnemonic : String)
  deriving DecidableEq, Repr

/-- The status register after reset: 0x00000000 (R39). -/
def Status.reset : Status := ⟨false, false, false, 0#3⟩

/-- The GF bank after reset: every register zero (R39). -/
def GfBank.reset : GfBank := ⟨0#32, Status.reset, 0#32, 0#32, 0#8, []⟩

/-- The PF bank after reset: every register zero (R39). -/
def PfBank.reset {W : Nat} : PfBank W := ⟨0#32, Status.reset, 0#W, 0#W, 0#W, 0#W⟩

/-- The machine of width `W` right after reset (R39, R200). The model's own fields hold nothing: no host has an access to make and
no event is foreseen (log 3). -/
def State.resetAt (W : Nat) : State W := ⟨GfBank.reset, PfBank.reset, [], [], 0⟩

/-- The machine right after reset, at the width of the instance. -/
def State.reset : State := State.resetAt 256

/-- The outcome of a step, or of a command's completion, of the machine of width `W`. -/
abbrev Result (W : Nat) := Host.Outcome (State W) Fault Refusal

end Sys2Proof.Machine
end

