-- ==== Sys2Proof/Machine/Flags.lean ====
section
/-! DEFINITION. The status register: the flags of the block and every value a step gives them (10_state.md R25, R27, R35, R36;
60_exceptions.md R170, R172). -/

namespace Sys2Proof.Machine

open Sys2Proof

/-- The errors a command can complete with (R170). -/
inductive CommandError where
  /-- Raised by XTIME (operand above 255) and GENRCON (count 0). -/
  | invalidInput
  /-- Raised by DIV (divisor congruent to 0). -/
  | divisionByZero
  /-- Raised by MULINV and DIV (gcd not 1). -/
  | invalidInverse
  /-- Raised by ADD, SUB, MUL, MULINV and DIV (modulus 0 or 1). -/
  | domainError
  /-- Raised by every word that is no command of its engine. -/
  | illegalCommand
  deriving DecidableEq, Repr

/-- `ECODE` of an error (R27, R170). -/
def CommandError.code : CommandError → BitVec 3
  | .invalidInput => 1#3
  | .divisionByZero => 2#3
  | .invalidInverse => 3#3
  | .domainError => 4#3
  | .illegalCommand => 5#3

/-- The 32-bit value a read of a status register returns (R27): `ECODE` in bits 6:4, 0 in bits 3 and 31:7. -/
def Status.word (st : Status) : Word :=
  0#25 ++ st.ecode ++ 0#1 ++ BitVec.ofBool st.err ++ BitVec.ofBool st.done ++ BitVec.ofBool st.busy

/-- Command start: `BUSY <- 1`, `DONE`, `ERR`, `ECODE` cleared (R35). -/
def Status.start (st : Status) : Status := { st with busy := true, done := false, err := false, ecode := 0#3 }

/-- Completion without error: `BUSY <- 0`, `DONE <- 1`, `ERR <- 0`, `ECODE <- 0` (R36). -/
def Status.complete (st : Status) : Status := { st with busy := false, done := true, err := false, ecode := 0#3 }

/-- Completion with error: `BUSY <- 0`, `DONE <- 1`, `ERR <- 1`, `ECODE <-` the error's code (R172). -/
def Status.raise (st : Status) (x : CommandError) : Status :=
  { st with busy := false, done := true, err := true, ecode := x.code }

end Sys2Proof.Machine
end

