-- ==== Sys2Proof/Machine/Operands.lean ====
section
/-! DEFINITION. Every form an operand takes in a register (R21, R23, R54, R55, R65, R107): the Octet in `GF_IN`, the bytes of a
Word, the limbs of a PF register, the bytes of `GF_RCBUF`. -/

namespace Sys2Proof.Machine

open Sys2Proof

variable {W : Nat}

/-- The Octet operand in `GF_IN[7:0]`; none when `GF_IN[31:8]` is not zero, since an Octet is always in [0, 255] (R101). -/
def octetOperand (w : Word) : Option Byte :=
  if w.extractLsb' 8 24 = 0#24 then some (w.extractLsb' 0 8) else none

/-- `word[k]`, byte `k` of a Word in a register: bits `31-8k : 24-8k`, so `word[0]` is the most significant (R65, R107). -/
def wordByte (w : Word) (k : Nat) : Byte := w.extractLsb' (24 - 8 * k) 8

/-- Limb `k` of a PF register: bits `32k+31 : 32k` (R54). -/
def limb (x : PfWord W) (k : Nat) : Word := x.extractLsb' (32 * k) 32

/-- A PF register with limb `k` replaced by `v` and the other limbs unchanged (R54). -/
def setLimb (x : PfWord W) (k : Nat) (v : Word) : PfWord W :=
  (x &&& ~~~((0xFFFFFFFF#32).setWidth W <<< (32 * k))) ||| (v.setWidth W <<< (32 * k))

/-- A natural number as the value of a PF register. Every result is below `p`, so nothing is cut (R131). -/
def pfWord (n : Nat) : PfWord W := BitVec.ofNat W n

end Sys2Proof.Machine
end

