-- ==== Sys2Proof/Machine/Ops.lean ====
section
/-! DEFINITION. The named operations over the state: the bytes of `GF_RCBUF`, the status registers, the output registers, and
the four events in the life of a command: start (R35), completion (R36), completion with error (R172, the "trap entry" of this
hardware, R177) and reset (R200). -/

namespace Sys2Proof.Machine

open Sys2Proof

variable {W : Nat}

/-! ### The R_CON buffer (R30) -/

/-- The byte listed at an index, 0x00 where none is listed (R39). -/
def Memory.lookup : Memory → Nat → Byte
  | [], _ => 0#8
  | (k, v) :: m, j => if k = j then v else Memory.lookup m j

/-- `GF_RCBUF[j]`. Byte 0 is hard-wired to 0x00 (R30) and the buffer ends at byte 255. -/
def Memory.read (m : Memory) (j : Nat) : Byte :=
  if 1 ≤ j ∧ j ≤ Config.rcMax then m.lookup j else 0#8

/-- The buffer holding these bytes from index `j` upward and 0x00 everywhere else. A byte 0x00 is not listed. The buffer is only
ever written whole (R30), so this is the one operation that writes it. -/
def Memory.ofBytes : Nat → List Byte → Memory
  | _, [] => []
  | j, v :: vs => if v = 0#8 then Memory.ofBytes (j + 1) vs else (j, v) :: Memory.ofBytes (j + 1) vs

/-- Every listed index is at least `j` and at most 255, the indexes rise strictly, and no listed byte is 0x00. -/
def Memory.wfFrom : Nat → Memory → Bool
  | _, [] => true
  | j, (k, v) :: m => decide (j ≤ k ∧ k ≤ Config.rcMax ∧ v ≠ 0#8) && Memory.wfFrom (k + 1) m

/-- The canonical form of the buffer: indexes 1 to 255, strictly rising, no listed byte equal to what an unlisted one reads as. -/
def Memory.wf (m : Memory) : Bool := Memory.wfFrom 1 m

/-- The word read at offset `0x100 + 4m`: byte `4m` in bits 7:0 up to byte `4m+3` in bits 31:24 (R55). -/
def Memory.wordAt (buf : Memory) (m : Nat) : Word :=
  buf.read (4 * m + 3) ++ buf.read (4 * m + 2) ++ buf.read (4 * m + 1) ++ buf.read (4 * m)

/-! ### Status and command registers -/

/-- The status register of an engine (R27). -/
def State.status (s : State W) : Engine → Status
  | .gf => s.gf.status
  | .pf => s.pf.status

/-- The command register of an engine (R26). -/
def State.cmd (s : State W) : Engine → Word
  | .gf => s.gf.cmd
  | .pf => s.pf.cmd

/-- Write the status register of one engine and nothing else. -/
def State.setStatus (s : State W) (e : Engine) (st : Status) : State W :=
  match e with
  | .gf => { s with gf := { s.gf with status := st } }
  | .pf => { s with pf := { s.pf with status := st } }

/-- Write the command register of one engine and nothing else. -/
def State.setCmd (s : State W) (e : Engine) (c : Word) : State W :=
  match e with
  | .gf => { s with gf := { s.gf with cmd := c } }
  | .pf => { s with pf := { s.pf with cmd := c } }

/-! ### Output registers -/

/-- What a command's completion writes beside the status: the output registers of each kind of command (R40). -/
inductive Output (W : Nat) where
  /-- `GF_OUT`: XTIME and ROTWORD (R21). -/
  | gfOut (v : Word)
  /-- `GF_RCLEN` and bytes 1 to 255 of `GF_RCBUF`, the given bytes from index 1 and 0x00 beyond: GENRCON (R29, R30). -/
  | gfRcon (count : BitVec 8) (bytes : List Byte)
  /-- `PF_R`: every PF command (R23). -/
  | pfR (v : PfWord W)
  deriving DecidableEq, Repr

/-- Write the output registers an output names; every other register is unchanged (R36). -/
def State.write (s : State W) : Output W → State W
  | .gfOut v => { s with gf := { s.gf with out := v } }
  | .gfRcon count bytes => { s with gf := { s.gf with rclen := count, rcbuf := Memory.ofBytes 1 bytes } }
  | .pfR v => { s with pf := { s.pf with r := v } }

/-- The same output registers written with zeros: what an error leaves in them (R173). -/
def Output.zeroed : Output W → Output W
  | .gfOut _ => .gfOut 0#32
  | .gfRcon _ _ => .gfRcon 0#8 []
  | .pfR _ => .pfR 0#W

/-! ### The life of a command -/

/-- Command start (R35): the word is stored whole, `BUSY` is set, `DONE`, `ERR` and `ECODE` are cleared, nothing else changes.
This is also the only way but reset to clear an error: "trap return" is the next command (R178). -/
def State.start (s : State W) (e : Engine) (c : Word) : State W :=
  (s.setCmd e c).setStatus e (s.status e).start

/-- Completion without error (R36): in one step the outputs are written and the status says done. -/
def State.complete (s : State W) (e : Engine) (o : Output W) : State W :=
  (s.write o).setStatus e (s.status e).complete

/-- Completion with error, `raise E` (R172): the status records the code, and the output registers of the failing command
(none for `IllegalCommand`) are written with zeros (R173). Nothing else changes: no state is saved, no control moves (R177). This is the "explicit error
result" of R66 and R172: every error sets `DONE`, `ERR` and its code. -/
def State.raise (s : State W) (e : Engine) (x : CommandError) : Option (Output W) → State W
  | some o => (s.write o.zeroed).setStatus e ((s.status e).raise x)
  | none => s.setStatus e ((s.status e).raise x)

/-- The completion of a legal command: its outputs, or its error, which zeroes the output registers that `shape` names. -/
def State.finish (s : State W) (e : Engine) (shape : Output W) : Except CommandError (Output W) → State W
  | .ok o => s.complete e o
  | .error x => s.raise e x (some shape)

/-- The completion of a word that is no command: `IllegalCommand`, and no output register is written (R86, R173). It is an error
result, no silent no-op (R66, R172). -/
def State.raiseIllegal (s : State W) (e : Engine) : State W := s.raise e .illegalCommand none

/-- The command an engine is about to complete: the word in its command register, decoded at completion (R26, R85). -/
def State.fetch (s : State W) (e : Engine) : Except Illegal Instr := decode e (s.cmd e)

/-- The reset input asserted and released (R200, R201): every architectural register takes its reset value, and a running
command is abandoned. What the hosts still have to do, and what comes next, is no register of the block. -/
def State.assertReset (s : State W) : State W := { s with gf := GfBank.reset, pf := PfBank.reset }

/-- The next event and the state without it (R34, log 1): the first of the listed events. When none is listed the next block is
taken: the free value `Config.between` at the counter, which then advances, and after it the turn the block owes an engine
(R212, log 11). -/
def State.takeEvent (s : State W) : Event × State W :=
  match s.events with
  | ev :: rest => (ev, { s with events := rest })
  | [] =>
    match Config.between s.tick with
    | ev :: rest =>
      (ev, { s with events := rest ++ [.turn (.engine (Config.due s.tick))], tick := s.tick + 1 })
    | [] => (.turn (.engine (Config.due s.tick)), { s with tick := s.tick + 1 })

end Sys2Proof.Machine
end

