-- ==== Sys2Proof/Machine/Bus.lean ====
section
/-! DEFINITION. The register space and the host's accesses (20_memory.md R50 to R60; 10_state.md R37, R40). -/

namespace Sys2Proof.Machine

open Sys2Proof

variable {W : Nat}

/-- The four `W`-bit registers of the PF bank. -/
inductive PfReg where
  | a
  | b
  | p
  | r
  deriving DecidableEq, Repr

/-- The 32-bit locations of the address map (R51). -/
inductive Loc where
  | gfCmd
  | gfStatus
  | gfIn
  | gfOut
  | gfRclen
  /-- Word `m` of `GF_RCBUF`, `0 ≤ m ≤ 63`. -/
  | gfRcbuf (m : Nat)
  | pfCmd
  | pfStatus
  /-- Limb `k` of a PF register, `0 ≤ k < NL`. -/
  | pfLimb (x : PfReg) (k : Nat)
  deriving DecidableEq, Repr

/-- The window base of a PF register (R51, R54). -/
def PfReg.windowBase : PfReg → Nat
  | .a => 0x400
  | .b => 0x600
  | .p => 0x800
  | .r => 0xA00

/-- The offset of a location (R51). -/
def Loc.offset : Loc → Nat
  | .gfCmd => 0x000
  | .gfStatus => 0x004
  | .gfIn => 0x008
  | .gfOut => 0x00C
  | .gfRclen => 0x010
  | .gfRcbuf m => 0x100 + 4 * m
  | .pfCmd => 0x200
  | .pfStatus => 0x204
  | .pfLimb x k => x.windowBase + 4 * k

/-- Whether a location is one of the map's at width `W`: the buffer has 64 words, a PF register `NL` limbs (R51). -/
def Loc.exists (W : Nat) : Loc → Bool
  | .gfRcbuf m => decide (m < 64)
  | .pfLimb _ k => decide (k < Config.NL W)
  | .gfCmd => true
  | .gfStatus => true
  | .gfIn => true
  | .gfOut => true
  | .gfRclen => true
  | .pfCmd => true
  | .pfStatus => true

/-- The locations, one of each kind, of which no other of that kind can stand at offset `n`. -/
def Loc.candidates (n : Nat) : List Loc :=
  [.gfCmd, .gfStatus, .gfIn, .gfOut, .gfRclen, .gfRcbuf ((n - 0x100) / 4), .pfCmd, .pfStatus,
   .pfLimb .a ((n - 0x400) / 4), .pfLimb .b ((n - 0x600) / 4), .pfLimb .p ((n - 0x800) / 4), .pfLimb .r ((n - 0xA00) / 4)]

/-- The location at an offset: the one of the map whose offset it is; none where the offset is unmapped (R51). -/
def locate (W : Nat) (off : BitVec 12) : Option Loc :=
  (Loc.candidates off.toNat).find? (fun l => l.exists W && l.offset == off.toNat)

/-- The bank a location belongs to (R51: offsets 0x000 to 0x1FF are the GF bank, 0x200 to 0xBFF the PF bank). -/
def Loc.bank : Loc → Engine
  | .gfCmd => .gf
  | .gfStatus => .gf
  | .gfIn => .gf
  | .gfOut => .gf
  | .gfRclen => .gf
  | .gfRcbuf _ => .gf
  | .pfCmd => .pf
  | .pfStatus => .pf
  | .pfLimb _ _ => .pf

/-- The locations the host may write (R40). -/
def Loc.writable : Loc → Bool
  | .gfCmd => true
  | .gfStatus => false
  | .gfIn => true
  | .gfOut => false
  | .gfRclen => false
  | .gfRcbuf _ => false
  | .pfCmd => true
  | .pfStatus => false
  | .pfLimb x _ => x != .r

/-- The status registers, a read of which is never held (R37). -/
def Loc.isStatus : Loc → Bool
  | .gfStatus => true
  | .pfStatus => true
  | .gfCmd => false
  | .gfIn => false
  | .gfOut => false
  | .gfRclen => false
  | .gfRcbuf _ => false
  | .pfCmd => false
  | .pfLimb _ _ => false

/-- The location at an offset that is a multiple of 4, for an access 32 bits wide; none otherwise (R52, R58 (a) to (c)). -/
def locateAligned (W width : Nat) (off : BitVec 12) : Option Loc :=
  if width = 32 ∧ off.toNat % 4 = 0 then locate W off else none

/-- The location an access is performed on; none where it is refused with `BusError`: wrong width, not aligned, unmapped, or a
write to a read-only location (R58). Checked before any hold. -/
def Access.target (W : Nat) : Access → Option Loc
  | .read width off => locateAligned W width off
  | .write width off _ => (locateAligned W width off).filter Loc.writable

/-- The value of a PF register. -/
def State.pfReg (s : State W) : PfReg → PfWord W
  | .a => s.pf.a
  | .b => s.pf.b
  | .p => s.pf.p
  | .r => s.pf.r

/-- Write an operand register of the PF bank; `PF_R` is not writable by the host and is left as it is (R23, R40). -/
def State.setPfOperand (s : State W) (x : PfReg) (v : PfWord W) : State W :=
  match x with
  | .a => { s with pf := { s.pf with a := v } }
  | .b => { s with pf := { s.pf with b := v } }
  | .p => { s with pf := { s.pf with p := v } }
  | .r => s

/-- The current value of a location; reserved bits read 0 (R56 (3), R54, R55). -/
def State.readLoc (s : State W) : Loc → Word
  | .gfCmd => s.gf.cmd
  | .gfStatus => s.gf.status.word
  | .gfIn => s.gf.input
  | .gfOut => s.gf.out
  | .gfRclen => s.gf.rclen.setWidth 32
  | .gfRcbuf m => s.gf.rcbuf.wordAt m
  | .pfCmd => s.pf.cmd
  | .pfStatus => s.pf.status.word
  | .pfLimb x k => limb (s.pfReg x) k

/-- What performing a write does (R57 (3)): an operand register takes the value, an operand limb is replaced, a command register
starts a command. A read-only location is never reached (R58). -/
def State.writeLoc (s : State W) (l : Loc) (v : Word) : State W :=
  match l with
  | .gfCmd => s.start .gf v
  | .gfIn => { s with gf := { s.gf with input := v } }
  | .pfCmd => s.start .pf v
  | .pfLimb x k => s.setPfOperand x (setLimb (s.pfReg x) k v)
  | .gfStatus => s
  | .gfOut => s
  | .gfRclen => s
  | .gfRcbuf _ => s
  | .pfStatus => s

/-- The hold rule (R37): while a bank is busy, every access to it but a read of its status register waits. -/
def State.held (s : State W) (l : Loc) : Bool := (s.status l.bank).busy && !l.isStatus

/-- Host `n`, whose port is `h`, is given a reply and goes on with `rest`. -/
def State.answer (s : State W) (n : Nat) (h : HostPort) (r : Reply) (rest : List HostOp) : State W :=
  { s with hosts := s.hosts.set n { script := rest, replies := h.replies ++ [r] } }

/-- Perform an access that is neither refused nor held (R56 (3), R57 (3)): one atomic step (R59). -/
def State.perform (s : State W) (n : Nat) (h : HostPort) (rest : List HostOp) (l : Loc) : Access → State W
  | .read _ _ => s.answer n h (.value (s.readLoc l)) rest
  | .write _ _ v => (s.writeLoc l v).answer n h .written rest

/-- The turn of a host whose next line is an access: refused (R58), or held (R37), in which case nothing changes and the access
is the host's next one still, or performed. -/
def State.hostAccess (s : State W) (n : Nat) (h : HostPort) (a : Access) (rest : List HostOp) : State W :=
  match a.target W with
  | none => s.answer n h .busError rest
  | some l => if s.held l then s else s.perform n h rest l a

/-- The status register of an engine as a location. -/
def statusLoc : Engine → Loc
  | .gf => .gfStatus
  | .pf => .pfStatus

/-- The command register of an engine as a location. -/
def cmdLoc : Engine → Loc
  | .gf => .gfCmd
  | .pf => .pfCmd

/-- One poll of `WAIT` (R90): a read of the status register; the line is repeated while the value read has bit 0 set. -/
def State.hostWait (s : State W) (n : Nat) (h : HostPort) (e : Engine) (rest : List HostOp) : State W :=
  let v := s.readLoc (statusLoc e)
  s.answer n h (.value v) (if v.getLsbD 0 then .wait e :: rest else rest)

/-- The turn of host `n`: the next line of its script. A host that is not there, or has nothing left to do, does nothing. -/
def State.hostTurn (s : State W) (n : Nat) : State W :=
  match s.hosts[n]? with
  | none => s
  | some h =>
    match h.script with
    | [] => s
    | .access a :: rest => s.hostAccess n h a rest
    | .wait e :: rest => s.hostWait n h e rest

end Sys2Proof.Machine
end

