-- ==== Sys2Proof/Machine/Gf256.lean ====
section
/-! DEFINITION. The functions of the GF engine (40_gf256.md R100, R103, R105, R108), on bit vectors. -/

namespace Sys2Proof.Machine

open Sys2Proof

/-- Multiplication of an Octet by `x` in GF(2^8) modulo `0x11B` (R100): double in nine bits, reduce if bit 7 was set, mask. -/
def xtime (v : Byte) : Byte :=
  let doubled : BitVec 9 := v.setWidth 9 <<< 1
  (if v.getLsbD 7 then doubled ^^^ Config.poly else doubled).setWidth 8

/-- The R_CON sequence (R103): `rcon 0` is the seed, each element the doubling of its predecessor. -/
def rcon : Nat → Byte
  | 0 => Config.seed
  | i + 1 => xtime (rcon i)

/-- The generator's loop (R105): the bytes for the indexes `j`, `j+1`, ... (`steps` of them), starting from the value `rc` of the
LFSR; an index above `count` gets 0x00. -/
def rconLoop (count : Nat) : (steps j : Nat) → (rc : Byte) → List Byte
  | 0, _, _ => []
  | n + 1, j, rc =>
    if j ≤ count then
      let rc' := xtime rc
      rc' :: rconLoop count n (j + 1) rc'
    else 0#8 :: rconLoop count n (j + 1) rc

/-- Bytes 1 to 255 of the buffer for a count (R105). Every command begins from the seed (R104). -/
def rconBytes (count : Nat) : List Byte := rconLoop count Config.rcMax 1 Config.seed

/-- Rotation of a Word left by one byte: `{w[23:0], w[31:24]}` (R108). -/
def rotword (w : Word) : Word := w.extractLsb' 0 24 ++ w.extractLsb' 24 8

end Sys2Proof.Machine
end

