-- ==== Sys2Proof/Machine/Gf.lean ====
section
/-! DEFINITION. The completions of the three GF commands (40_gf256.md R101, R105, R109, R111): what each computes from its
operands alone (R38), and the step that writes it. -/

namespace Sys2Proof.Machine

open Sys2Proof

variable {W : Nat}

/-- XTIME's outcome as a function of `GF_IN` (R101). -/
def xtimeResult (input : Word) : Except CommandError (Output W) :=
  match octetOperand input with
  | none => .error .invalidInput
  | some v => .ok (.gfOut ((xtime v).setWidth 32))

/-- GENRCON's outcome as a function of the count (R105). -/
def genrconResult (count : BitVec 8) : Except CommandError (Output W) :=
  if count.toNat < 1 then .error .invalidInput else .ok (.gfRcon count (rconBytes count.toNat))

/-- XTIME (R101). -/
def execXtime (s : State W) : Result W :=
  .next (s.finish .gf (.gfOut 0#32) (xtimeResult s.gf.input))

/-- GENRCON (R105). -/
def execGenrcon (count : BitVec 8) (s : State W) : Result W :=
  .next (s.finish .gf (.gfRcon 0#8 []) (genrconResult count))

/-- ROTWORD (R109): no error can occur. -/
def execRotword (s : State W) : Result W :=
  .next (s.complete .gf (.gfOut (rotword s.gf.input)))

end Sys2Proof.Machine
end

