-- ==== Sys2Proof/Machine/PrimeField.lean ====
section
/-! DEFINITION. The functions of the PF engine (41_primefield.md R130 to R147), on naturals and exact (R131). None depends
on `W`. -/

namespace Sys2Proof.Machine

/-- `(a + b) mod p` (R132). -/
def modadd (a b p : Nat) : Nat := (a + b) % p

/-- The least non-negative residue of `a - b` modulo `p`, with no negative intermediate (R134, R135). -/
def modsub (a b p : Nat) : Nat := (a % p + p - b % p) % p

/-- `(a * b) mod p` (R136). -/
def modmul (a b p : Nat) : Nat := (a * b) % p

/-- The extended-Euclidean iteration of R140, at most `fuel` rounds: the last `r0` and `t0`. -/
def euclid : (fuel r0 r1 : Nat) → (t0 t1 : Int) → Nat × Int
  | 0, r0, _, t0, _ => (r0, t0)
  | n + 1, r0, r1, t0, t1 =>
    if r1 = 0 then (r0, t0)
    else euclid n r1 (r0 - r0 / r1 * r1) t1 (t0 - (r0 / r1 : Nat) * t1)

/-- `modinv(a, p)` (R138), by the iteration of R140. `r1` starts below `p` and falls in every round, so `p` rounds are enough
(log 18). Meant where `gcd(a mod p, p) = 1`. -/
def modinv (a p : Nat) : Nat := ((euclid p p (a % p) 0 1).2 % (p : Int)).toNat

/-- Whether one of the `steps` numbers `i`, `i+1`, ... divides `p` (R147), stopping at the first that does. -/
def anyDivides (p : Nat) : (steps i : Nat) → Bool
  | 0, _ => false
  | n + 1, i => if p % i = 0 then true else anyDivides p n (i + 1)

/-- `isprime(p)` (R146): 0 if `p ≤ 1` or some `i` in `[2, p-1]` divides `p`, else 1. -/
def isprime (p : Nat) : Nat :=
  if p ≤ 1 then 0 else if anyDivides p (p - 2) 2 then 0 else 1

end Sys2Proof.Machine
end

