-- ==== Sys2Proof/Machine/Pf.lean ====
section
/-! DEFINITION. The completions of the six PF commands (41_primefield.md R133 to R149). Each outcome is a function of the
operands the command reads (R23, R38), the checks in the order of R176. -/

namespace Sys2Proof.Machine

open Sys2Proof

variable {W : Nat}

/-- The modulus check the five reducing commands make first (R130). -/
def checkModulus (p : Nat) (k : Except CommandError Nat) : Except CommandError Nat :=
  if p ≤ 1 then .error .domainError else k

/-- The inverse, or its error (R139). -/
def inverseOrError (a p : Nat) : Except CommandError Nat :=
  if Nat.gcd (a % p) p ≠ 1 then .error .invalidInverse else .ok (modinv a p)

/-- ADD (R133). -/
def addResult (a b p : Nat) : Except CommandError Nat := checkModulus p (.ok (modadd a b p))

/-- SUB (R135). -/
def subResult (a b p : Nat) : Except CommandError Nat := checkModulus p (.ok (modsub a b p))

/-- MUL (R137). -/
def mulResult (a b p : Nat) : Except CommandError Nat := checkModulus p (.ok (modmul a b p))

/-- MULINV (R139). -/
def mulinvResult (a p : Nat) : Except CommandError Nat := checkModulus p (inverseOrError a p)

/-- DIV (R143): DivisionByZero is checked before the inverse's own error. -/
def divResult (a b p : Nat) : Except CommandError Nat :=
  checkModulus p
    (if b % p = 0 then .error .divisionByZero
     else match inverseOrError b p with
       | .error x => .error x
       | .ok x => .ok (modmul a x p))

/-- A PF command's number as the output it writes. -/
def pfOutput : Except CommandError Nat → Except CommandError (Output W)
  | .ok n => .ok (.pfR (pfWord n))
  | .error x => .error x

/-- The completion of a PF command with a given outcome: `PF_R` and the status, or the error with `PF_R` zeroed (R36, R172,
R173). -/
def State.finishPf (s : State W) (res : Except CommandError Nat) : State W := s.finish .pf (.pfR 0#W) (pfOutput res)

/-- ADD (R133). -/
def execAdd (s : State W) : Result W :=
  .next (s.finishPf (addResult s.pf.a.toNat s.pf.b.toNat s.pf.p.toNat))

/-- SUB (R135). -/
def execSub (s : State W) : Result W :=
  .next (s.finishPf (subResult s.pf.a.toNat s.pf.b.toNat s.pf.p.toNat))

/-- MUL (R137). -/
def execMul (s : State W) : Result W :=
  .next (s.finishPf (mulResult s.pf.a.toNat s.pf.b.toNat s.pf.p.toNat))

/-- MULINV (R139): `PF_B` is not read. -/
def execMulinv (s : State W) : Result W :=
  .next (s.finishPf (mulinvResult s.pf.a.toNat s.pf.p.toNat))

/-- DIV (R143). -/
def execDiv (s : State W) : Result W :=
  .next (s.finishPf (divResult s.pf.a.toNat s.pf.b.toNat s.pf.p.toNat))

/-- ISPRIME (R148): no error, and only `PF_P` is read. -/
def execIsprime (s : State W) : Result W :=
  .next (s.finishPf (.ok (isprime s.pf.p.toNat)))

end Sys2Proof.Machine
end

