-- ==== Sys2Proof/Machine/Dispatch.lean ====
section
/-! DEFINITION. exec: the completion step of each command, one arm per constructor of Instr, each one call of its meaning. -/

namespace Sys2Proof.Machine

open Sys2Proof

def exec (i : Instr) (s : State) : Host.Outcome State Fault Refusal :=
  match i with
  | .xtime => Sys2Proof.Machine.execXtime s
  | .genrcon count => Sys2Proof.Machine.execGenrcon count s
  | .rotword => Sys2Proof.Machine.execRotword s
  | .add => Sys2Proof.Machine.execAdd s
  | .sub => Sys2Proof.Machine.execSub s
  | .mul => Sys2Proof.Machine.execMul s
  | .mulinv => Sys2Proof.Machine.execMulinv s
  | .div => Sys2Proof.Machine.execDiv s
  | .isprime => Sys2Proof.Machine.execIsprime s

end Sys2Proof.Machine
end

