-- ==== Sys2Proof/Machine/Turn.lean ====
section
/-! DEFINITION. What happens in the turn of each agent (10_state.md R34), at every width. `exec` of Dispatch.lean is the completion
of each command at the width of the instance; `execAt` calls the same meanings at the width of its state (R6, log 6). What follows
is said once, for any completion function `ex`. -/

namespace Sys2Proof.Machine

open Sys2Proof

variable {W : Nat}

/-- The completion of each command in a machine of any width: the meanings `exec` calls. -/
def execAt (i : Instr) (s : State W) : Result W :=
  match i with
  | .xtime => execXtime s
  | .genrcon count => execGenrcon count s
  | .rotword => execRotword s
  | .add => execAdd s
  | .sub => execSub s
  | .mul => execMul s
  | .mulinv => execMulinv s
  | .div => execDiv s
  | .isprime => execIsprime s

/-- The turn of an engine: its completion step when it is busy (R36, R172), nothing when it is idle (R186). -/
def engineTurn (ex : Instr → State W → Result W) (e : Engine) (s : State W) : Result W :=
  if (s.status e).busy then
    match s.fetch e with
    | .ok i => ex i s
    | .error _ => .next (s.raiseIllegal e)
  else .next s

/-- What an event does. -/
def happen (ex : Instr → State W → Result W) (ev : Event) (s : State W) : Result W :=
  match ev with
  | .reset => .next s.assertReset
  | .turn (.host n) => .next (s.hostTurn n)
  | .turn (.engine e) => engineTurn ex e s

/-- Take the next event and let it happen. -/
def takeAndHappen (ex : Instr → State W → Result W) (s : State W) : Result W :=
  happen ex s.takeEvent.1 s.takeEvent.2

/-- `s` in the moment after a host wrote the word to the command register of its engine (R35), that engine's turn being the next
event (log 4). -/
def State.withCommand (s : State W) (c : Word) : State W :=
  { s.start (engineOfTableWord c) c with events := .turn (.engine (engineOfTableWord c)) :: s.events }

end Sys2Proof.Machine
end

