-- ==== Sys2Proof/Machine/Step.lean ====
section
/-! DEFINITION. One step of the system (10_state.md R34): the next event happens. Either an agent has its turn, or the reset
input is asserted. `step` is the machine of width 256, the instance of R6; `stepAt` is the machine of the width of its state. -/

namespace Sys2Proof.Machine

open Sys2Proof

/-- One step of the instance. -/
def step (s : State) : Host.Outcome State Fault Refusal := takeAndHappen exec s

/-- One step of the machine of width `W`. -/
def stepAt {W : Nat} (s : State W) : Result W := takeAndHappen execAt s

/-- The machine of width `W` with the step `st`, as the host's interface takes it. -/
abbrev coreWith {W : Nat} (st : State W → Result W) : Host.Core where
  State := State W
  Fault := Fault
  Refusal := Refusal
  step := st
  reset := State.resetAt W

/-- `s` with a table word in the command register of its engine, whose turn is the next event: the very next step completes that
command. This machine fetches nothing; a command reaches an engine only by the host's write (R24, log 4). -/
def State.withFetchWord (s : State) (nbits w : Nat) : State := s.withCommand (tableWord nbits w)

end Sys2Proof.Machine
end

