-- ==== Sys2Proof/Machine/Script.lean ====
section
/-! DEFINITION. The notation for host scripts (30_encoding.md R89, R90): each line and each pseudo-instruction as the accesses it
stands for. -/

namespace Sys2Proof.Machine

open Sys2Proof

variable {W : Nat}

/-- `WR loc, v` (R89). -/
def scriptWr (l : Loc) (v : Word) : HostOp := .access (.write 32 (BitVec.ofNat 12 l.offset) v)

/-- `RD loc` (R89). -/
def scriptRd (l : Loc) : HostOp := .access (.read 32 (BitVec.ofNat 12 l.offset))

/-- `GFCMD` or `PFCMD` and a mnemonic: the write of the command's word to the command register of its engine (R89). -/
def scriptCmd (i : Instr) : HostOp := scriptWr (cmdLoc i.engine) (encode i)

/-- `WRW X, n`: `NL` writes, limb 0 first (R90). -/
def scriptWrw (x : PfReg) (n : PfWord W) : List HostOp :=
  (List.range (Config.NL W)).map (fun k => scriptWr (.pfLimb x k) (limb n k))

/-- `RDW X` at width `W` (R90). -/
def scriptRdw (W : Nat) (x : PfReg) : List HostOp := (List.range (Config.NL W)).map (fun k => scriptRd (.pfLimb x k))

/-- A command, the wait for it, and the read of its status: the middle of every `CALL` (R90). -/
def scriptRun (i : Instr) : List HostOp := [scriptCmd i, .wait i.engine, scriptRd (statusLoc i.engine)]

/-- `CALL ADD a, b, p`, and `SUB`, `MUL`, `DIV` (R90). -/
def scriptCall3 (i : Instr) (a b p : PfWord W) : List HostOp :=
  scriptWrw .a a ++ scriptWrw .b b ++ scriptWrw .p p ++ scriptRun i ++ scriptRdw W .r

/-- `CALL MULINV a, p` (R90). -/
def scriptCallMulinv (a p : PfWord W) : List HostOp :=
  scriptWrw .a a ++ scriptWrw .p p ++ scriptRun .mulinv ++ scriptRdw W .r

/-- `CALL ISPRIME p` (R90). -/
def scriptCallIsprime (p : PfWord W) : List HostOp := scriptWrw .p p ++ scriptRun .isprime ++ scriptRdw W .r

/-- `CALL XTIME v` and `CALL ROTWORD w` (R90). -/
def scriptCallGf (i : Instr) (v : Word) : List HostOp := scriptWr .gfIn v :: scriptRun i ++ [scriptRd .gfOut]

/-- `CALL GENRCON n` (R90). -/
def scriptCallGenrcon (n : BitVec 8) : List HostOp :=
  scriptRun (.genrcon n) ++ scriptRd .gfRclen :: (List.range (n.toNat / 4 + 1)).map (fun m => scriptRd (.gfRcbuf m))

end Sys2Proof.Machine
end

