-- ==== Sys2Proof/Safety.lean ====
section
/-! DEFINITION. The terms the statements use: what the spec says of every reachable state (10_state.md R28, R30), when a run has
ended (R206), what a statement says at every width (R6), and how a command ends (R36, R172: outputs, status, and everything else
unchanged). -/

namespace Sys2Proof.Machine

open Sys2Proof

variable {W : Nat}

/-- R28: the legal states of a status register. -/
def Status.legal (st : Status) : Prop :=
  (st.busy = true → st.done = false ∧ st.err = false ∧ st.ecode = 0) ∧
  (st.err = true ↔ st.ecode ≠ 0) ∧
  (st.err = true → st.done = true) ∧
  st.ecode.toNat ≤ 5

/-- R30: the buffer holds the R_CON sequence up to `GF_RCLEN` and 0x00 beyond, in canonical form. -/
def GfBank.bufferMatches (g : GfBank) : Prop :=
  g.rcbuf.wf = true ∧
  ∀ j, 1 ≤ j → j ≤ Config.rcMax → g.rcbuf.read j = if j ≤ g.rclen.toNat then rcon j else 0

/-- The invariant of the machine: both status registers legal and the buffer as R30 says. -/
def State.Inv (s : State W) : Prop :=
  s.gf.status.legal ∧ s.pf.status.legal ∧ s.gf.bufferMatches

/-- R206: a run has ended when every script is exhausted and both engines are idle. -/
def State.ended (s : State W) : Prop :=
  (∀ h ∈ s.hosts, h.script = []) ∧ s.gf.status.busy = false ∧ s.pf.status.busy = false

/-- `rule` holds of the machine of every width (R6, R33, log 6): of the machine of the fixed names, whose completion function and step
are `exec` and `step` and whose width is the instance's 256, and of the machine of every width that R6 allows. A rule is given the
width, the completion function and the step. -/
def AtEveryWidth (rule : (W : Nat) → (Instr → State W → Result W) → (State W → Result W) → Prop) : Prop :=
  rule 256 exec step ∧ ∀ W, Config.IsWidth W → rule W execAt stepAt

/-- The completion `o` of a PF command in `s` answers a next state in which `PF_R` is `r`, `PF_STATUS` reads `w`, and nothing else
has changed: no other register of either bank, no byte of the buffer, nothing of the hosts. -/
def PfEnds (o : Result W) (s : State W) (r : Nat) (w : Word) : Prop :=
  ∃ t, o = .next t ∧ t.pf.r.toNat = r ∧ t.pf.status.word = w ∧
    t = { s with pf := { s.pf with r := t.pf.r, status := t.pf.status } }

/-- The completion `o` of a GF command in `s` answers a next state in which `GF_OUT` is `v`, `GF_STATUS` reads `w`, and nothing else
has changed. -/
def GfOutEnds (o : Result W) (s : State W) (v w : Word) : Prop :=
  ∃ t, o = .next t ∧ t.gf.out = v ∧ t.gf.status.word = w ∧
    t = { s with gf := { s.gf with out := t.gf.out, status := t.gf.status } }

/-- The completion `o` of a GF command in `s` answers a next state in which `GF_RCLEN` is `n`, byte `j` of `GF_RCBUF` is `f j` for
`1 ≤ j ≤ 255` and byte 0 is 0x00, `GF_STATUS` reads `w`, and nothing else has changed. -/
def GfRconEnds (o : Result W) (s : State W) (n : BitVec 8) (f : Nat → Byte) (w : Word) : Prop :=
  ∃ t, o = .next t ∧ t.gf.rclen = n ∧ (∀ j, 1 ≤ j → j ≤ 255 → t.gf.rcbuf.read j = f j) ∧
    t.gf.rcbuf.read 0 = 0 ∧ t.gf.status.word = w ∧
    t = { s with gf := { s.gf with rclen := t.gf.rclen, rcbuf := t.gf.rcbuf, status := t.gf.status } }

/-- It is host `n`'s turn, its next line is `op`, and `h`, `rest`, `evs` are its port, the rest of its script and the events after
this one. -/
def State.AtHostLine (s : State W) (n : Nat) (op : HostOp) (h : HostPort) (rest : List HostOp) (evs : List Event) : Prop :=
  s.events = .turn (.host n) :: evs ∧ s.hosts[n]? = some h ∧ h.script = op :: rest

/-- `s` after host `n` has been given the reply `r` in its turn and nothing else has happened. -/
def State.Replied (s : State W) (n : Nat) (r : Reply) (h : HostPort) (rest : List HostOp) (evs : List Event) : State W :=
  { s with events := evs, hosts := s.hosts.set n { script := rest, replies := h.replies ++ [r] } }

/-- An offset as the 12 bits an access carries. -/
abbrev Loc.bits (l : Loc) : BitVec 12 := BitVec.ofNat 12 l.offset

end Sys2Proof.Machine
end

