-- ==== Sys2Proof/Certificates/Slice0/Obligations.lean ====
section
/-! DEFINITION. What is claimed of the model, one statement per definition, from the numbered rules of spec/. "Its turn" and "an
event" in a docstring are the model's form of R34's interleaving (log 1); a host's line and reply are log 2's; a held access that
leaves the state as it is is log 5's.

A statement about the machine is made at every width that R6 allows (`AtEveryWidth`, log 6): `W` is the width, `ex` the completion
function, `st` the step. At the width of the instance they are `exec` and `step` themselves; at any width, `execAt` and `stepAt`. -/

open Sys2Proof Sys2Proof.Machine

/-! ### Encoding -/

/-- R93: the worked encodings, as words and as what each decodes to. The names of the reasons for which a word is illegal, where one
is given, are the model's (log 17); R93 gives the reasons. -/
def Obligations.WorkedEncodingsDecode : Prop :=
  encode (.genrcon 10) = (10#32 <<< 8) ||| 0x02#32 ∧
  encode (.genrcon 10) = 0x00000A02#32 ∧ decode .gf 0x00000A02#32 = .ok (.genrcon 10) ∧
  encode (.genrcon 255) = 0x0000FF02#32 ∧ decode .gf 0x0000FF02#32 = .ok (.genrcon 255) ∧
  encode (.genrcon 0) = 0x00000002#32 ∧ decode .gf 0x00000002#32 = .ok (.genrcon 0) ∧
  AtEveryWidth (fun W ex _ => ∀ s : State W, ∃ t, ex (.genrcon 0) s = .next t ∧ t.gf.status.word = 0x00000016#32) ∧
  decode .gf 0x00010002#32 = .error .zeroField ∧
  decode .gf 0x00000101#32 = .error .countField ∧
  decode .gf 0x00000010#32 = .error .otherEngine ∧
  decode .pf 0x00000010#32 = .ok .add ∧
  ∃ x, decode .pf 0x00000A02#32 = .error x

/-- R80, R84, R85: on its own engine a command's word decodes to it, with every count, and no other word of that engine decodes
to it; on the other engine no word does. -/
def Obligations.DecodeIsTheInverseOfEncode : Prop :=
  ∀ (e : Engine) (c : Word) (i : Instr), decode e c = .ok i ↔ WellFormed e i ∧ c = encode i

/-- R85: which words select which command on each engine; every other word is illegal. -/
def Obligations.EachWordSelectsItsCommand : Prop :=
  ∀ c : Word,
    (decode .gf c = .ok .xtime ↔ c = 0x00000001#32) ∧
    (∀ n, decode .gf c = .ok (.genrcon n) ↔ c &&& 0xFFFF00FF#32 = 0x00000002#32 ∧ n = c.extractLsb' 8 8) ∧
    (decode .gf c = .ok .rotword ↔ c = 0x00000003#32) ∧
    (decode .pf c = .ok .add ↔ c = 0x00000010#32) ∧
    (decode .pf c = .ok .sub ↔ c = 0x00000011#32) ∧
    (decode .pf c = .ok .mul ↔ c = 0x00000012#32) ∧
    (decode .pf c = .ok .mulinv ↔ c = 0x00000013#32) ∧
    (decode .pf c = .ok .div ↔ c = 0x00000014#32) ∧
    (decode .pf c = .ok .isprime ↔ c = 0x00000015#32) ∧
    ((∃ x, decode .gf c = .error x) ↔
      ¬ (c = 0x00000001#32 ∨ c &&& 0xFFFF00FF#32 = 0x00000002#32 ∨ c = 0x00000003#32)) ∧
    ((∃ x, decode .pf c = .error x) ↔ ¬ (0x00000010#32 ≤ c ∧ c ≤ 0x00000015#32))

/-- R84, R92: no word matches two rows of the opcode table, and a decoder that takes the row that matches gives the same command
as `decode`. -/
def Obligations.OpcodeTableDecides : Prop :=
  (∀ c : Word, ∀ r ∈ opcodeTable, ∀ q ∈ opcodeTable,
    c &&& r.mask = r.pattern → c &&& q.mask = q.pattern → r = q) ∧
  (∀ (e : Engine) (c : Word), ∀ r ∈ opcodeTable, r.covers e c = true →
    ∃ i, decode e c = .ok i ∧ i.mnemonic = r.mnemonic) ∧
  (∀ (e : Engine) (c : Word) (i : Instr), decode e c = .ok i →
    ∃ r ∈ opcodeTable, r.covers e c = true ∧ r.mnemonic = i.mnemonic)

/-- R86: which words are illegal; an illegal word is accepted like any other, and its completion is `IllegalCommand`, which writes
no output register and leaves the word to be read back. -/
def Obligations.IllegalWordsCompleteWithIllegalCommand : Prop :=
  AtEveryWidth fun W _ st =>
  (∀ c : Word, (∃ x, decode .gf c = .error x) ↔
    c.extractLsb' 16 16 ≠ 0#16 ∨
    (c.extractLsb' 0 8 ≠ 0x01#8 ∧ c.extractLsb' 0 8 ≠ 0x02#8 ∧ c.extractLsb' 0 8 ≠ 0x03#8) ∨
    ((c.extractLsb' 0 8 = 0x01#8 ∨ c.extractLsb' 0 8 = 0x03#8) ∧ c.extractLsb' 8 8 ≠ 0#8)) ∧
  (∀ c : Word, (∃ x, decode .pf c = .error x) ↔
    c.extractLsb' 16 16 ≠ 0#16 ∨ ¬ (0x10#8 ≤ c.extractLsb' 0 8 ∧ c.extractLsb' 0 8 ≤ 0x15#8) ∨
    c.extractLsb' 8 8 ≠ 0#8) ∧
  (∃ x, decode .gf 0x00000000#32 = .error x) ∧ (∃ x, decode .pf 0x00000000#32 = .error x) ∧
  (∀ (s : State W) (e : Engine) (c : Word),
    (s.writeLoc (cmdLoc e) c).readLoc (cmdLoc e) = c ∧ ((s.writeLoc (cmdLoc e) c).status e).busy = true) ∧
  (∀ (s : State W) (e : Engine) (x : Illegal) (evs : List Event),
    s.events = .turn (.engine e) :: evs → (s.status e).busy = true → decode e (s.cmd e) = .error x →
    ∃ t, st s = .next t ∧ (t.status e).word = 0x00000056#32 ∧ t.readLoc (cmdLoc e) = s.cmd e ∧
      t = State.setStatus { s with events := evs } e (t.status e))

/-! ### The register space and the host -/

/-- R51: the address map; an aligned offset holds the location the map gives it and is otherwise unmapped. -/
def Obligations.AddressMapIsTheTable : Prop :=
  ∀ W, Config.IsWidth W →
  (∀ (off : BitVec 12) (l : Loc), off.toNat % 4 = 0 →
    (locate W off = some l ↔ l.exists W = true ∧ off.toNat = l.offset)) ∧
  Loc.offset .gfCmd = 0x000 ∧ Loc.offset .gfStatus = 0x004 ∧ Loc.offset .gfIn = 0x008 ∧ Loc.offset .gfOut = 0x00C ∧
  Loc.offset .gfRclen = 0x010 ∧ (∀ m, Loc.offset (.gfRcbuf m) = 0x100 + 4 * m) ∧
  Loc.offset .pfCmd = 0x200 ∧ Loc.offset .pfStatus = 0x204 ∧
  (∀ k, Loc.offset (.pfLimb .a k) = 0x400 + 4 * k ∧ Loc.offset (.pfLimb .b k) = 0x600 + 4 * k ∧
    Loc.offset (.pfLimb .p k) = 0x800 + 4 * k ∧ Loc.offset (.pfLimb .r k) = 0xA00 + 4 * k) ∧
  (∀ l : Loc, l.exists W = true ↔ (∀ m, l = .gfRcbuf m → m ≤ 63) ∧ (∀ x k, l = .pfLimb x k → k < Config.NL W)) ∧
  (∀ l : Loc, l.exists W = true → (l.bank = .gf ↔ l.offset ≤ 0x1FF) ∧ (l.bank = .pf ↔ 0x200 ≤ l.offset) ∧ l.offset ≤ 0xBFF) ∧
  (∀ l : Loc, l.writable = false ↔ l = .gfStatus ∨ l = .gfOut ∨ l = .gfRclen ∨ (∃ m, l = .gfRcbuf m) ∨ l = .pfStatus ∨
    (∃ k, l = .pfLimb .r k))

/-- R58: an access of another width than 32 bits, at an offset that is no multiple of 4, at an unmapped offset, or a write to a
read-only location gets `BusError` and changes nothing, whether or not the bank is busy. -/
def Obligations.RefusedAccessGetsBusError : Prop :=
  AtEveryWidth fun W _ st =>
  ∀ (s : State W) (n : Nat) (h : HostPort) (a : Access) (rest : List HostOp) (evs : List Event),
    s.AtHostLine n (.access a) h rest evs →
    (match a with
      | .read width off => width ≠ 32 ∨ off.toNat % 4 ≠ 0 ∨ ∀ l : Loc, l.exists W = true → off.toNat ≠ l.offset
      | .write width off _ =>
        width ≠ 32 ∨ off.toNat % 4 ≠ 0 ∨ ∀ l : Loc, l.exists W = true → l.writable = true → off.toNat ≠ l.offset) →
    st s = .next (s.Replied n .busError h rest evs)

/-- R56: a read is refused, or held (it changes nothing and is the host's next line still), or it returns the current value of its
location at once and changes nothing else. A read of a status register is never held. -/
def Obligations.ReadIsRefusedHeldOrPerformed : Prop :=
  AtEveryWidth fun W _ st =>
  ∀ (s : State W) (n : Nat) (h : HostPort) (width : Nat) (off : BitVec 12) (rest : List HostOp) (evs : List Event),
    s.AtHostLine n (.access (.read width off)) h rest evs →
    (width ≠ 32 ∨ off.toNat % 4 ≠ 0 ∨ (∀ l : Loc, l.exists W = true → off.toNat ≠ l.offset) →
      st s = .next (s.Replied n .busError h rest evs)) ∧
    (∀ l : Loc, width = 32 → l.exists W = true → off.toNat = l.offset →
      ((s.status l.bank).busy = true → l ≠ statusLoc l.bank → st s = .next { s with events := evs }) ∧
      ((s.status l.bank).busy = false ∨ l = statusLoc l.bank →
        st s = .next (s.Replied n (.value (s.readLoc l)) h rest evs)))

/-- R57: a write is refused, or held (it changes nothing and is the host's next line still), or performed at once: `GF_IN` takes the
value, an operand limb is replaced, or a command starts. -/
def Obligations.WriteIsRefusedHeldOrPerformed : Prop :=
  AtEveryWidth fun W _ st =>
  ∀ (s : State W) (n : Nat) (h : HostPort) (width : Nat) (off : BitVec 12) (v : Word) (rest : List HostOp) (evs : List Event),
    s.AtHostLine n (.access (.write width off v)) h rest evs →
    (width ≠ 32 ∨ off.toNat % 4 ≠ 0 ∨ (∀ l : Loc, l.exists W = true → l.writable = true → off.toNat ≠ l.offset) →
      st s = .next (s.Replied n .busError h rest evs)) ∧
    (∀ l : Loc, width = 32 → l.exists W = true → l.writable = true → off.toNat = l.offset →
      ((s.status l.bank).busy = true → st s = .next { s with events := evs }) ∧
      ((s.status l.bank).busy = false →
        (l = .gfIn → st s = .next (State.Replied { s with gf := { s.gf with input := v } } n .written h rest evs)) ∧
        (∀ k, l = .pfLimb .a k →
          st s = .next (State.Replied { s with pf := { s.pf with a := setLimb s.pf.a k v } } n .written h rest evs)) ∧
        (∀ k, l = .pfLimb .b k →
          st s = .next (State.Replied { s with pf := { s.pf with b := setLimb s.pf.b k v } } n .written h rest evs)) ∧
        (∀ k, l = .pfLimb .p k →
          st s = .next (State.Replied { s with pf := { s.pf with p := setLimb s.pf.p k v } } n .written h rest evs)) ∧
        (∀ e, l = cmdLoc e → st s = .next ((s.start e v).Replied n .written h rest evs))))

/-- R57, R54, R51: a write to an operand register that is not held is performed: at 0x008, `GF_IN` takes the value; in the window at
0x400, `PF_A` changes by exactly the limb written, at 0x600 `PF_B`, at 0x800 `PF_P`; no other register changes (not the two other
operands, not `PF_R`) and no command starts. The last clause says it once more by register name, for the three. -/
def Obligations.OperandWriteReplacesRegisterOrLimb : Prop :=
  AtEveryWidth fun W _ st =>
  (∀ (s : State W) (n : Nat) (h : HostPort) (v : Word) (rest : List HostOp) (evs : List Event),
    s.AtHostLine n (.access (.write 32 0x008#12 v)) h rest evs → s.gf.status.busy = false →
    st s = .next (State.Replied { s with gf := { s.gf with input := v } } n .written h rest evs)) ∧
  (∀ (s : State W) (n : Nat) (h : HostPort) (off : BitVec 12) (k : Nat) (v : Word) (rest : List HostOp) (evs : List Event),
    s.AtHostLine n (.access (.write 32 off v)) h rest evs → k < Config.NL W → s.pf.status.busy = false →
    let written : PfWord W → Nat := fun x =>
      x.toNat - (x.extractLsb' (32 * k) 32).toNat * 2 ^ (32 * k) + v.toNat * 2 ^ (32 * k)
    (off.toNat = 0x400 + 4 * k → ∃ x : PfWord W, x.toNat = written s.pf.a ∧
      st s = .next (State.Replied { s with pf := { s.pf with a := x } } n .written h rest evs)) ∧
    (off.toNat = 0x600 + 4 * k → ∃ x : PfWord W, x.toNat = written s.pf.b ∧
      st s = .next (State.Replied { s with pf := { s.pf with b := x } } n .written h rest evs)) ∧
    (off.toNat = 0x800 + 4 * k → ∃ x : PfWord W, x.toNat = written s.pf.p ∧
      st s = .next (State.Replied { s with pf := { s.pf with p := x } } n .written h rest evs))) ∧
  (∀ (s : State W) (n : Nat) (h : HostPort) (x : PfReg) (k : Nat) (v : Word) (rest : List HostOp) (evs : List Event),
    s.AtHostLine n (.access (.write 32 (Loc.pfLimb x k).bits v)) h rest evs → x ≠ .r → k < Config.NL W →
    s.pf.status.busy = false →
    ∃ t, st s = .next (State.Replied t n .written h rest evs) ∧
      t.gf = s.gf ∧ t.hosts = s.hosts ∧ t.tick = s.tick ∧ t.pf.cmd = s.pf.cmd ∧ t.pf.status = s.pf.status ∧
      (∀ y, y ≠ x → t.pfReg y = s.pfReg y) ∧
      (t.pfReg x).toNat = (s.pfReg x).toNat - ((s.pfReg x).extractLsb' (32 * k) 32).toNat * 2 ^ (32 * k)
        + v.toNat * 2 ^ (32 * k))

/-- R35: a write of any word to an idle engine's command register stores the word, sets `BUSY` and clears `DONE`, `ERR` and
`ECODE`, and changes nothing else of either bank. -/
def Obligations.CommandWriteStartsACommand : Prop :=
  AtEveryWidth fun W _ st =>
  (∀ (s : State W) (n : Nat) (h : HostPort) (c : Word) (rest : List HostOp) (evs : List Event),
    s.AtHostLine n (.access (.write 32 0x000#12 c)) h rest evs → s.gf.status.busy = false →
    ∃ q : Status, q.busy = true ∧ q.done = false ∧ q.err = false ∧ q.ecode = 0 ∧ q.word = 0x00000001#32 ∧
      st s = .next (State.Replied { s with gf := { s.gf with cmd := c, status := q } } n .written h rest evs)) ∧
  (∀ (s : State W) (n : Nat) (h : HostPort) (c : Word) (rest : List HostOp) (evs : List Event),
    s.AtHostLine n (.access (.write 32 0x200#12 c)) h rest evs → s.pf.status.busy = false →
    ∃ q : Status, q.busy = true ∧ q.done = false ∧ q.err = false ∧ q.ecode = 0 ∧ q.word = 0x00000001#32 ∧
      st s = .next (State.Replied { s with pf := { s.pf with cmd := c, status := q } } n .written h rest evs))

/-- R54: limb `k` is bits `32k+31 : 32k`, a register is the sum of its limbs, and writing a limb changes that limb alone. -/
def Obligations.LimbsMakeUpTheRegister : Prop :=
  ∀ W, Config.IsWidth W →
  ∀ x : PfWord W,
    (∀ k, (limb x k).toNat = x.toNat / 2 ^ (32 * k) % 2 ^ 32) ∧
    x.toNat = ∑ k ∈ Finset.range (Config.NL W), (limb x k).toNat * 2 ^ (32 * k) ∧
    (∀ (k : Nat) (v : Word), k < Config.NL W → limb (setLimb x k v) k = v ∧
      (∀ l, l ≠ k → limb (setLimb x k v) l = limb x l) ∧
      (setLimb x k v).toNat = x.toNat - (limb x k).toNat * 2 ^ (32 * k) + v.toNat * 2 ^ (32 * k))

/-- R55, R30: byte `j` of the buffer is bits `8(j mod 4)+7 : 8(j mod 4)` of the word at `0x100 + 4 floor(j/4)`; byte 0 reads 0x00 in
every state; and the words after GENRCON 10. -/
def Obligations.BufferIsReadFourBytesAtATime : Prop :=
  AtEveryWidth fun W ex _ =>
  (∀ (s : State W) (j : Nat), j ≤ 255 →
    Loc.offset (.gfRcbuf (j / 4)) = 0x100 + 4 * (j / 4) ∧
    (s.readLoc (.gfRcbuf (j / 4))).extractLsb' (8 * (j % 4)) 8 = s.gf.rcbuf.read j) ∧
  (∀ s : State W, s.gf.rcbuf.read 0 = 0 ∧ (s.readLoc (.gfRcbuf 0)).extractLsb' 0 8 = 0#8) ∧
  (∀ s : State W, ∃ t, ex (.genrcon 10) s = .next t ∧
    t.readLoc (.gfRcbuf 0) = 0x04020100#32 ∧ t.readLoc (.gfRcbuf 1) = 0x40201008#32 ∧
    t.readLoc (.gfRcbuf 2) = 0x00361B80#32 ∧ t.readLoc (.gfRcbuf 3) = 0x00000000#32)

/-- R56 (3), R54, R21, R23, R26, R27, R29: which register's contents the host reads at each location (the buffer's words are O13's):
the command, operand and output registers as they stand; the two statuses bit by bit; the length; and at the window of each PF
register its limbs, bits `32k+31 : 32k`. The names by engine and by register that other statements use are these same registers. -/
def Obligations.ReadsReturnTheirRegisters : Prop :=
  ∀ W, Config.IsWidth W →
  ∀ s : State W,
    s.readLoc .gfCmd = s.gf.cmd ∧ s.readLoc .gfIn = s.gf.input ∧ s.readLoc .gfOut = s.gf.out ∧ s.readLoc .pfCmd = s.pf.cmd ∧
    (∀ k, s.readLoc (.pfLimb .a k) = s.pf.a.extractLsb' (32 * k) 32 ∧
      s.readLoc (.pfLimb .b k) = s.pf.b.extractLsb' (32 * k) 32 ∧
      s.readLoc (.pfLimb .p k) = s.pf.p.extractLsb' (32 * k) 32 ∧
      s.readLoc (.pfLimb .r k) = s.pf.r.extractLsb' (32 * k) 32) ∧
    s.readLoc .gfStatus = s.gf.status.word ∧ s.readLoc .pfStatus = s.pf.status.word ∧
    (∀ q : Status, q.word.getLsbD 0 = q.busy ∧ q.word.getLsbD 1 = q.done ∧ q.word.getLsbD 2 = q.err ∧
      q.word.getLsbD 3 = false ∧ q.word.extractLsb' 4 3 = q.ecode ∧ q.word.extractLsb' 7 25 = 0#25) ∧
    (s.readLoc .gfRclen).extractLsb' 0 8 = s.gf.rclen ∧ (s.readLoc .gfRclen).extractLsb' 8 24 = 0#24 ∧
    cmdLoc .gf = .gfCmd ∧ cmdLoc .pf = .pfCmd ∧ statusLoc .gf = .gfStatus ∧ statusLoc .pf = .pfStatus ∧
    s.cmd .gf = s.gf.cmd ∧ s.cmd .pf = s.pf.cmd ∧ s.status .gf = s.gf.status ∧ s.status .pf = s.pf.status ∧
    s.pfReg .a = s.pf.a ∧ s.pfReg .b = s.pf.b ∧ s.pfReg .p = s.pf.p ∧ s.pfReg .r = s.pf.r

/-- R90: `WAIT` reads the status register and is over at the first read with bit 0 equal to 0. One poll in each turn of the host is
the model's choice (log 16). -/
def Obligations.WaitPollsTheStatus : Prop :=
  AtEveryWidth fun W _ st =>
  ∀ (s : State W) (n : Nat) (h : HostPort) (e : Engine) (rest : List HostOp) (evs : List Event),
    s.AtHostLine n (.wait e) h rest evs →
    st s = .next (s.Replied n (.value (s.status e).word) h
      (if (s.status e).busy = true then .wait e :: rest else rest) evs)

/-! ### GF engine -/

/-- R102: the reduction network, bit by bit. -/
def Obligations.XtimeIsTheXorNetwork : Prop :=
  ∀ v : Byte,
    (xtime v).getLsbD 0 = v.getLsbD 7 ∧
    (xtime v).getLsbD 1 = (v.getLsbD 0 ^^ v.getLsbD 7) ∧
    (xtime v).getLsbD 2 = v.getLsbD 1 ∧
    (xtime v).getLsbD 3 = (v.getLsbD 2 ^^ v.getLsbD 7) ∧
    (xtime v).getLsbD 4 = (v.getLsbD 3 ^^ v.getLsbD 7) ∧
    (xtime v).getLsbD 5 = v.getLsbD 4 ∧
    (xtime v).getLsbD 6 = v.getLsbD 5 ∧
    (xtime v).getLsbD 7 = v.getLsbD 6

/-- R100: doubling in a wider value, reduction by `0x11B`, mask; the equal form in 8 bits; and: `xtime v` is the product of the
Octet `v` by the polynomial `x` modulo `x^8+x^4+x^3+x+1`, over the field of two elements. -/
def Obligations.XtimeMultipliesByX : Prop :=
  let polyOf : Byte → Polynomial (ZMod 2) := fun v =>
    ∑ i ∈ Finset.range 8, if v.getLsbD i = true then Polynomial.X ^ i else 0
  ∀ v : Byte,
    (xtime v).toNat = (if v.getLsbD 7 = true then (2 * v.toNat) ^^^ 0x11B else 2 * v.toNat) &&& 0xFF ∧
    xtime v = (v <<< 1) ^^^ (if v.getLsbD 7 = true then 0x1B#8 else 0x00#8) ∧
    (Polynomial.X ^ 8 + Polynomial.X ^ 4 + Polynomial.X ^ 3 + Polynomial.X + 1 : Polynomial (ZMod 2)) ∣
      Polynomial.X * polyOf v - polyOf (xtime v)

/-- R103: the R_CON sequence starts from the seed, each element is the doubling of its predecessor, the first is 0x01, and
element `i`, from 1 on, is the field element `x^(i-1)`. -/
def Obligations.RconIsThePowerOfX : Prop :=
  let polyOf : Byte → Polynomial (ZMod 2) := fun v =>
    ∑ i ∈ Finset.range 8, if v.getLsbD i = true then Polynomial.X ^ i else 0
  rcon 0 = 0x8D#8 ∧ (∀ i, 1 ≤ i → rcon i = xtime (rcon (i - 1))) ∧ rcon 1 = 0x01#8 ∧
  ∀ i, 1 ≤ i →
    (Polynomial.X ^ 8 + Polynomial.X ^ 4 + Polynomial.X ^ 3 + Polynomial.X + 1 : Polynomial (ZMod 2)) ∣
      Polynomial.X ^ (i - 1) - polyOf (rcon i)

/-- R101: XTIME. An Octet in `GF_IN` is doubled into `GF_OUT`; a value of 256 or more is `InvalidInput` with `GF_OUT` zeroed; no
other register changes; the corner cases; `xtime` is a bijection. -/
def Obligations.XtimeDoublesTheOctet : Prop :=
  AtEveryWidth fun W ex _ =>
  encode .xtime = 0x00000001#32 ∧
  (∀ s : State W, s.gf.input.toNat < 256 →
    GfOutEnds (ex .xtime s) s ((xtime (s.gf.input.extractLsb' 0 8)).setWidth 32) 0x00000002#32) ∧
  (∀ s : State W, 256 ≤ s.gf.input.toNat → GfOutEnds (ex .xtime s) s 0 0x00000016#32) ∧
  xtime 0x00#8 = 0x00#8 ∧ xtime 0x80#8 = 0x1B#8 ∧ xtime 0x7F#8 = 0xFE#8 ∧ xtime 0xFF#8 = 0xE5#8 ∧ xtime 0x8D#8 = 0x01#8 ∧
  Function.Bijective xtime

/-- R103, R106: the values of the R_CON sequence, its period 51, and that 51 is the least period. -/
def Obligations.RconHasPeriodFiftyOne : Prop :=
  rcon 0 = 0x8D#8 ∧ (∀ i, rcon (i + 1) = xtime (rcon i)) ∧
  (List.range' 1 51).map rcon =
    [0x01#8, 0x02#8, 0x04#8, 0x08#8, 0x10#8, 0x20#8, 0x40#8, 0x80#8, 0x1B#8, 0x36#8,
     0x6C#8, 0xD8#8, 0xAB#8, 0x4D#8, 0x9A#8, 0x2F#8, 0x5E#8, 0xBC#8, 0x63#8, 0xC6#8,
     0x97#8, 0x35#8, 0x6A#8, 0xD4#8, 0xB3#8, 0x7D#8, 0xFA#8, 0xEF#8, 0xC5#8, 0x91#8,
     0x39#8, 0x72#8, 0xE4#8, 0xD3#8, 0xBD#8, 0x61#8, 0xC2#8, 0x9F#8, 0x25#8, 0x4A#8,
     0x94#8, 0x33#8, 0x66#8, 0xCC#8, 0x83#8, 0x1D#8, 0x3A#8, 0x74#8, 0xE8#8, 0xCB#8,
     0x8D#8] ∧
  (∀ i, rcon (i + 51) = rcon i) ∧
  (∀ k, 1 ≤ k → k < 51 → ∃ i, 1 ≤ i ∧ i + k ≤ 255 ∧ rcon (i + k) ≠ rcon i) ∧
  (∀ i, rcon i ≠ 0x00#8) ∧
  rcon 52 = 0x01#8 ∧ rcon 102 = 0x8D#8 ∧ rcon 153 = 0x8D#8 ∧ rcon 204 = 0x8D#8 ∧ rcon 255 = 0x8D#8

/-- R105: GENRCON. A count of at least 1 leaves `rcon 1`, ..., `rcon count` in the buffer, 0x00 beyond, and the count in
`GF_RCLEN`; a count of 0 is `InvalidInput` with all of them zeroed; no other register changes. -/
def Obligations.GenrconFillsTheBuffer : Prop :=
  AtEveryWidth fun W ex _ =>
  (∀ n : BitVec 8, (encode (.genrcon n)).toNat = n.toNat * 256 + 2) ∧
  (∀ (n : BitVec 8) (s : State W), 1 ≤ n.toNat →
    GfRconEnds (ex (.genrcon n) s) s n (fun j => if j ≤ n.toNat then rcon j else 0) 0x00000002#32) ∧
  (∀ s : State W, GfRconEnds (ex (.genrcon 0) s) s 0 (fun _ => 0) 0x00000016#32) ∧
  rcon 1 = 0x01#8 ∧ rcon 255 = 0x8D#8

/-- R104: every GENRCON starts from the seed 0x8D: byte 1 is its doubling, whatever the state before (`xtime` is a bijection, O19, so
no other start gives it). Two GENRCON commands with the same count leave identical `GF_RCLEN` and `GF_RCBUF`, whatever came before,
and a shorter sequence is the beginning of a longer one. -/
def Obligations.GenrconStartsFromTheSeed : Prop :=
  Config.seed = 0x8D#8 ∧ xtime Config.seed = 0x01#8 ∧
  AtEveryWidth fun W ex _ =>
  (∀ (n : BitVec 8) (s t : State W), 1 ≤ n.toNat → ex (.genrcon n) s = .next t →
    t.gf.rcbuf.read 1 = xtime Config.seed) ∧
  (∀ (n : BitVec 8) (s s' t t' : State W), ex (.genrcon n) s = .next t → ex (.genrcon n) s' = .next t' →
    t.gf.rclen = t'.gf.rclen ∧ t.gf.rcbuf = t'.gf.rcbuf) ∧
  (∀ (n m : BitVec 8) (s s' t t' : State W), n ≤ m → ex (.genrcon n) s = .next t → ex (.genrcon m) s' = .next t' →
    ∀ j, 1 ≤ j → j ≤ n.toNat → t.gf.rcbuf.read j = t'.gf.rcbuf.read j)

/-- R107, R108: the bytes of a rotated word are bytes 1, 2, 3, 0 of the word, and both forms of the rule's expression agree. -/
def Obligations.RotwordMovesEachByte : Prop :=
  ∀ w : Word,
    wordByte w 0 = w.extractLsb' 24 8 ∧ wordByte w 1 = w.extractLsb' 16 8 ∧ wordByte w 2 = w.extractLsb' 8 8 ∧
    wordByte w 3 = w.extractLsb' 0 8 ∧
    wordByte (rotword w) 0 = wordByte w 1 ∧ wordByte (rotword w) 1 = wordByte w 2 ∧
    wordByte (rotword w) 2 = wordByte w 3 ∧ wordByte (rotword w) 3 = wordByte w 0 ∧
    rotword w = w.extractLsb' 0 24 ++ w.extractLsb' 24 8 ∧
    rotword w = ((w <<< 8) ||| (w >>> 24)) ∧ rotword w = w.rotateLeft 8

/-- R109: ROTWORD. Every word is rotated left by one byte into `GF_OUT` without error; no other register changes; the corner
cases and the example. -/
def Obligations.RotwordRotatesWithoutError : Prop :=
  AtEveryWidth fun W ex _ =>
  encode .rotword = 0x00000003#32 ∧
  (∀ s : State W, GfOutEnds (ex .rotword s) s (rotword s.gf.input) 0x00000002#32) ∧
  rotword 0x00000000#32 = 0x00000000#32 ∧ rotword 0xFFFFFFFF#32 = 0xFFFFFFFF#32 ∧
  (∀ b : Byte, rotword (b ++ b ++ b ++ b) = b ++ b ++ b ++ b) ∧
  rotword 0x80000000#32 = 0x00000080#32 ∧ rotword 0x000000FF#32 = 0x0000FF00#32 ∧
  rotword 0x09CF4F3C#32 = 0xCF4F3C09#32

/-- R110: four rotations return the word; rotation is a bijection whose inverse is three rotations; two swap the halves. -/
def Obligations.FourRotationsReturnTheWord : Prop :=
  (∀ w : Word, rotword (rotword (rotword (rotword w))) = w) ∧
  Function.Bijective rotword ∧
  (∀ w v : Word, rotword w = v ↔ w = rotword (rotword (rotword v))) ∧
  (∀ w : Word, rotword (rotword w) = w.extractLsb' 0 16 ++ w.extractLsb' 16 16)

/-- R111: what the completion of a word in `GF_CMD` leaves, row by row of the table. -/
def Obligations.GfOutcomesAreTheTable : Prop :=
  AtEveryWidth fun W _ st =>
  ∀ (s : State W) (evs : List Event), s.events = .turn (.engine .gf) :: evs → s.gf.status.busy = true →
    ∃ t, st s = .next t ∧ t.pf = s.pf ∧ t.hosts = s.hosts ∧ t.events = evs ∧ t.tick = s.tick ∧
      t.gf.cmd = s.gf.cmd ∧ t.gf.input = s.gf.input ∧
      (if s.gf.cmd = 0x00000001#32 then
        t.gf.rclen = s.gf.rclen ∧ t.gf.rcbuf = s.gf.rcbuf ∧
        (if s.gf.input.extractLsb' 8 24 ≠ 0#24 then t.gf.out = 0 ∧ t.gf.status.word = 0x00000016#32
         else t.gf.out = (xtime (s.gf.input.extractLsb' 0 8)).setWidth 32 ∧ t.gf.status.word = 0x00000002#32)
      else if s.gf.cmd &&& 0xFFFF00FF#32 = 0x00000002#32 then
        t.gf.out = s.gf.out ∧
        (if s.gf.cmd = 0x00000002#32 then
          t.gf.rclen = 0 ∧ (∀ j, t.gf.rcbuf.read j = 0) ∧ t.gf.status.word = 0x00000016#32
         else t.gf.rclen = s.gf.cmd.extractLsb' 8 8 ∧
          (∀ j, 1 ≤ j → j ≤ 255 → t.gf.rcbuf.read j = if j ≤ (s.gf.cmd.extractLsb' 8 8).toNat then rcon j else 0) ∧
          t.gf.status.word = 0x00000002#32)
      else if s.gf.cmd = 0x00000003#32 then
        t.gf.rclen = s.gf.rclen ∧ t.gf.rcbuf = s.gf.rcbuf ∧ t.gf.out = rotword s.gf.input ∧
        t.gf.status.word = 0x00000002#32
      else t.gf.out = s.gf.out ∧ t.gf.rclen = s.gf.rclen ∧ t.gf.rcbuf = s.gf.rcbuf ∧
        t.gf.status.word = 0x00000056#32)

/-! ### PF engine -/

/-- R130: the five commands that reduce end in `DomainError` with `PF_R` zeroed, and nothing else, when the modulus is 0 or 1, and
ISPRIME does not; above 1 none of them ends in that error. -/
def Obligations.SmallModulusIsADomainError : Prop :=
  AtEveryWidth fun W ex _ =>
  (∀ (i : Instr) (s : State W), i = .add ∨ i = .sub ∨ i = .mul ∨ i = .mulinv ∨ i = .div → s.pf.p.toNat ≤ 1 →
    PfEnds (ex i s) s 0 0x00000046#32) ∧
  (∀ s : State W, s.pf.p.toNat ≤ 1 → PfEnds (ex .isprime s) s 0 0x00000002#32) ∧
  (∀ (i : Instr) (s t : State W), i.engine = .pf → 2 ≤ s.pf.p.toNat → ex i s = .next t →
    t.pf.status.word ≠ 0x00000046#32)

/-- R132, R133: ADD gives `(a + b) mod p` for every `a`, `b` and every `p` of at least 2. -/
def Obligations.AddGivesTheSumModP : Prop :=
  AtEveryWidth fun W ex _ =>
  encode .add = 0x00000010#32 ∧
  ∀ s : State W,
    (s.pf.p.toNat ≤ 1 → PfEnds (ex .add s) s 0 0x00000046#32) ∧
    (2 ≤ s.pf.p.toNat → PfEnds (ex .add s) s ((s.pf.a.toNat + s.pf.b.toNat) % s.pf.p.toNat) 0x00000002#32)

/-- R134, R135: SUB gives the least non-negative residue of the integer `a - b`, which is the source's `(a + p - b) mod p` wherever
that has no negative intermediate, and the rule's hardware form everywhere. -/
def Obligations.SubGivesTheLeastResidue : Prop :=
  AtEveryWidth fun W ex _ =>
  encode .sub = 0x00000011#32 ∧
  ∀ s : State W,
    (s.pf.p.toNat ≤ 1 → PfEnds (ex .sub s) s 0 0x00000046#32) ∧
    (2 ≤ s.pf.p.toNat →
      PfEnds (ex .sub s) s (((s.pf.a.toNat : Int) - (s.pf.b.toNat : Int)) % (s.pf.p.toNat : Int)).toNat 0x00000002#32 ∧
      PfEnds (ex .sub s) s ((s.pf.a.toNat % s.pf.p.toNat + s.pf.p.toNat - s.pf.b.toNat % s.pf.p.toNat) % s.pf.p.toNat)
        0x00000002#32) ∧
    (2 ≤ s.pf.p.toNat → s.pf.b.toNat ≤ s.pf.a.toNat + s.pf.p.toNat →
      PfEnds (ex .sub s) s ((s.pf.a.toNat + s.pf.p.toNat - s.pf.b.toNat) % s.pf.p.toNat) 0x00000002#32)

/-- R136, R137: MUL gives `(a * b) mod p`, exact for products of up to `2W` bits. -/
def Obligations.MulGivesTheProductModP : Prop :=
  AtEveryWidth fun W ex _ =>
  encode .mul = 0x00000012#32 ∧
  ∀ s : State W,
    (s.pf.p.toNat ≤ 1 → PfEnds (ex .mul s) s 0 0x00000046#32) ∧
    (2 ≤ s.pf.p.toNat → PfEnds (ex .mul s) s ((s.pf.a.toNat * s.pf.b.toNat) % s.pf.p.toNat) 0x00000002#32)

/-- R138, R139: MULINV. When the gcd is 1 it ends with the one `x < p` with `(a * x) mod p = 1`; otherwise with `InvalidInverse` and
`PF_R` zeroed; with `DomainError` first. Prime or not, `p` is not tested (R141). -/
def Obligations.MulinvGivesTheInverse : Prop :=
  AtEveryWidth fun W ex _ =>
  encode .mulinv = 0x00000013#32 ∧
  ∀ s : State W,
    (s.pf.p.toNat ≤ 1 → PfEnds (ex .mulinv s) s 0 0x00000046#32) ∧
    (2 ≤ s.pf.p.toNat → Nat.gcd (s.pf.a.toNat % s.pf.p.toNat) s.pf.p.toNat ≠ 1 → PfEnds (ex .mulinv s) s 0 0x00000036#32) ∧
    (2 ≤ s.pf.p.toNat → Nat.gcd (s.pf.a.toNat % s.pf.p.toNat) s.pf.p.toNat = 1 →
      ∃ x, PfEnds (ex .mulinv s) s x 0x00000002#32 ∧ 1 ≤ x ∧ x < s.pf.p.toNat ∧ s.pf.a.toNat * x % s.pf.p.toNat = 1 ∧
        ∀ y, y < s.pf.p.toNat → s.pf.a.toNat * y % s.pf.p.toNat = 1 → y = x)

/-- R140: the reference iteration ends with the gcd in `r0`, for every modulus of at least 2, and the two worked traces. -/
def Obligations.EuclidEndsWithTheGcd : Prop :=
  (∀ a p : Nat, 2 ≤ p → (euclid p p (a % p) 0 1).1 = Nat.gcd (a % p) p) ∧
  (∀ a p : Nat, 2 ≤ p → a % p = 0 → (euclid p p (a % p) 0 1).1 = p) ∧
  euclid 11 11 3 0 1 = (1, 4) ∧ euclid 9 9 6 0 1 = (3, -1) ∧ modinv 3 11 = 4

/-- R142: for a prime modulus and `a` not congruent to 0 the inverse is `a^(p-2) mod p`. For composite moduli that expression is in
general not the inverse: three counterexamples, and one where there is no inverse at all. -/
def Obligations.FermatAgreesForPrimeModuli : Prop :=
  (∀ a p : Nat, Nat.Prime p → a % p ≠ 0 → modinv a p = a ^ (p - 2) % p) ∧
  (3 ^ 9 % 11 = 4 ∧ modinv 3 11 = 4) ∧
  (3 ^ 2 % 4 = 1 ∧ modinv 3 4 = 3) ∧ (7 ^ 8 % 10 = 1 ∧ modinv 7 10 = 3) ∧ (2 ^ 7 % 9 = 2 ∧ modinv 2 9 = 5) ∧
  (2 ^ 2 % 4 = 0 ∧ Nat.gcd (2 % 4) 4 ≠ 1)

/-- R143: DIV. The checks in their order, then `PF_R` is the `x < p` with `x * b` congruent to `a`, being `a` times the inverse of
`b`. -/
def Obligations.DivGivesTheFieldQuotient : Prop :=
  AtEveryWidth fun W ex _ =>
  encode .div = 0x00000014#32 ∧
  ∀ s : State W,
    (s.pf.p.toNat ≤ 1 → PfEnds (ex .div s) s 0 0x00000046#32) ∧
    (2 ≤ s.pf.p.toNat → s.pf.b.toNat % s.pf.p.toNat = 0 → PfEnds (ex .div s) s 0 0x00000026#32) ∧
    (2 ≤ s.pf.p.toNat → s.pf.b.toNat % s.pf.p.toNat ≠ 0 →
      Nat.gcd (s.pf.b.toNat % s.pf.p.toNat) s.pf.p.toNat ≠ 1 → PfEnds (ex .div s) s 0 0x00000036#32) ∧
    (2 ≤ s.pf.p.toNat → Nat.gcd (s.pf.b.toNat % s.pf.p.toNat) s.pf.p.toNat = 1 →
      ∃ x y, PfEnds (ex .div s) s x 0x00000002#32 ∧ y < s.pf.p.toNat ∧ s.pf.b.toNat * y % s.pf.p.toNat = 1 ∧
        x = s.pf.a.toNat * y % s.pf.p.toNat ∧ x * s.pf.b.toNat % s.pf.p.toNat = s.pf.a.toNat % s.pf.p.toNat)

/-- R144: where DIV completes without error, its result is that of MULINV on `(b, p)` followed by MUL of `a` and that inverse; for
`b` congruent to 0 DIV reports `DivisionByZero` and MULINV `InvalidInverse`. -/
def Obligations.DivIsMulinvThenMul : Prop :=
  AtEveryWidth fun W ex _ =>
  (∀ s t : State W, ex .div s = .next t → t.pf.status.word = 0x00000002#32 →
    ∃ u v, ex .mulinv { s with pf := { s.pf with a := s.pf.b } } = .next u ∧ u.pf.status.word = 0x00000002#32 ∧
      ex .mul { s with pf := { s.pf with b := u.pf.r } } = .next v ∧ v.pf.status.word = 0x00000002#32 ∧
      v.pf.r = t.pf.r) ∧
  (∀ s t u : State W, 2 ≤ s.pf.p.toNat → s.pf.b.toNat % s.pf.p.toNat = 0 → ex .div s = .next t →
    ex .mulinv { s with pf := { s.pf with a := s.pf.b } } = .next u →
    t.pf.status.word = 0x00000026#32 ∧ u.pf.status.word = 0x00000036#32)

/-- R146, R148: ISPRIME gives 1 exactly when `PF_P` is a prime number and 0 otherwise, never an error. -/
def Obligations.IsprimeTellsPrimes : Prop :=
  AtEveryWidth fun W ex _ =>
  encode .isprime = 0x00000015#32 ∧
  (∀ s : State W, Nat.Prime s.pf.p.toNat → PfEnds (ex .isprime s) s 1 0x00000002#32) ∧
  (∀ s : State W, ¬ Nat.Prime s.pf.p.toNat → PfEnds (ex .isprime s) s 0 0x00000002#32)

/-- R147: a search that stops at the square root gives the same answer. -/
def Obligations.IsprimeNeedsDivisorsToTheRootOnly : Prop :=
  ∀ p : Nat, isprime p = 1 ↔ 2 ≤ p ∧ ∀ i, 2 ≤ i → i * i ≤ p → p % i ≠ 0

/-- R149: what the completion of a word in `PF_CMD` leaves, row by row of the table. -/
def Obligations.PfOutcomesAreTheTable : Prop :=
  AtEveryWidth fun W _ st =>
  ∀ (s : State W) (evs : List Event), s.events = .turn (.engine .pf) :: evs → s.pf.status.busy = true →
    let c := s.pf.cmd
    let a := s.pf.a.toNat
    let b := s.pf.b.toNat
    let p := s.pf.p.toNat
    ∃ t, st s = .next t ∧ t.gf = s.gf ∧ t.hosts = s.hosts ∧ t.events = evs ∧ t.tick = s.tick ∧
      t.pf.cmd = c ∧ t.pf.a = s.pf.a ∧ t.pf.b = s.pf.b ∧ t.pf.p = s.pf.p ∧
      (if c < 0x00000010#32 ∨ 0x00000015#32 < c then t.pf.r = s.pf.r ∧ t.pf.status.word = 0x00000056#32
       else if c ≠ 0x00000015#32 ∧ p ≤ 1 then t.pf.r = 0 ∧ t.pf.status.word = 0x00000046#32
       else if c = 0x00000014#32 ∧ b % p = 0 then t.pf.r = 0 ∧ t.pf.status.word = 0x00000026#32
       else if c = 0x00000014#32 ∧ Nat.gcd (b % p) p ≠ 1 then t.pf.r = 0 ∧ t.pf.status.word = 0x00000036#32
       else if c = 0x00000013#32 ∧ Nat.gcd (a % p) p ≠ 1 then t.pf.r = 0 ∧ t.pf.status.word = 0x00000036#32
       else t.pf.status.word = 0x00000002#32 ∧
         (c = 0x00000010#32 → t.pf.r.toNat = (a + b) % p) ∧
         (c = 0x00000011#32 → (t.pf.r.toNat : Int) = ((a : Int) - (b : Int)) % (p : Int)) ∧
         (c = 0x00000012#32 → t.pf.r.toNat = a * b % p) ∧
         (c = 0x00000013#32 → t.pf.r.toNat < p ∧ a * t.pf.r.toNat % p = 1) ∧
         (c = 0x00000014#32 → ∃ x, x < p ∧ b * x % p = 1 ∧ t.pf.r.toNat = a * x % p) ∧
         (c = 0x00000015#32 → (Nat.Prime p → t.pf.r.toNat = 1) ∧ (¬ Nat.Prime p → t.pf.r.toNat = 0)))

/-- R150: the properties it lists of the modular functions, for every modulus of at least 2, prime or not, and unreduced operands. -/
def Obligations.ModularFunctionsHaveTheListedProperties : Prop :=
  ∀ a b p : Nat, 2 ≤ p →
    (Nat.gcd (a % p) p = 1 → modmul a (modinv a p) p = 1) ∧
    modadd (modsub a b p) b p = a % p ∧
    modadd a b p = modadd b a p ∧ modmul a b p = modmul b a p ∧ modsub a a p = 0 ∧ modmul a 1 p = a % p ∧
    divResult a 1 p = .ok (a % p)

/-- R131: with a modulus of at least 2, what a PF command leaves in `PF_R` is below the modulus. -/
def Obligations.ResultsAreBelowTheModulus : Prop :=
  AtEveryWidth fun W ex _ =>
  ∀ (i : Instr) (s t : State W), i.engine = .pf → 2 ≤ s.pf.p.toNat → ex i s = .next t → t.pf.r.toNat < s.pf.p.toNat

/-! ### Errors, frames, purity -/

/-- R172, R173, R111, R149, and the half of R66 that is hardware, "explicit error results, never silent no-ops": a busy engine's turn
ends every word, legal or not, with `BUSY = 0`, `DONE = 1` and `ERR` set exactly when `ECODE` is not 0; a word that is no command
always ends in `IllegalCommand`. The completion of a command leaves `BUSY = 0`, `DONE = 1`, `ERR` set exactly when `ECODE` is not 0; after
an error its output registers are zero; a GF command raises no error but `InvalidInput`, a PF command never that one, and no command
`IllegalCommand`. -/
def Obligations.ErrorsZeroTheOutputs : Prop :=
  AtEveryWidth fun W ex _ =>
  (∀ (e : Engine) (s : State W), (s.status e).busy = true →
    ∃ t, engineTurn ex e s = .next t ∧ (t.status e).busy = false ∧ (t.status e).done = true ∧
      ((t.status e).err = true ↔ (t.status e).ecode ≠ 0) ∧
      ((∃ x, decode e (s.cmd e) = .error x) ↔ (t.status e).ecode = 5)) ∧
  ∀ (i : Instr) (s t : State W), ex i s = .next t →
    (t.status i.engine).busy = false ∧ (t.status i.engine).done = true ∧
    ((t.status i.engine).err = true ↔ (t.status i.engine).ecode ≠ 0) ∧
    (i.engine = .gf → t.gf.status.ecode = 0 ∨ t.gf.status.ecode = 1) ∧
    (i.engine = .pf → t.pf.status.ecode = 0 ∨ t.pf.status.ecode = 2 ∨ t.pf.status.ecode = 3 ∨ t.pf.status.ecode = 4) ∧
    ((t.status i.engine).err = true →
      (i = .xtime → t.gf.out = 0) ∧
      (∀ n, i = .genrcon n → t.gf.rclen = 0 ∧ ∀ j, t.gf.rcbuf.read j = 0) ∧
      (i.engine = .pf → t.pf.r = 0) ∧ i ≠ .rotword ∧ i ≠ .isprime)

/-- R21, R29, R30, R38: the frame of XTIME, GENRCON and ROTWORD. -/
def Obligations.GfCommandsLeaveTheRest : Prop :=
  AtEveryWidth fun W ex _ =>
  ∀ (i : Instr) (s t : State W), i.engine = .gf → ex i s = .next t →
    t.pf = s.pf ∧ t.gf.cmd = s.gf.cmd ∧ t.gf.input = s.gf.input ∧ t.hosts = s.hosts ∧ t.events = s.events ∧
    t.tick = s.tick ∧
    (i = .xtime ∨ i = .rotword → t.gf.rclen = s.gf.rclen ∧ ∀ j, t.gf.rcbuf.read j = s.gf.rcbuf.read j) ∧
    (∀ n, i = .genrcon n → t.gf.out = s.gf.out)

/-- R23, R38: the frame of ADD, SUB, MUL, MULINV, DIV and ISPRIME. -/
def Obligations.PfCommandsLeaveTheRest : Prop :=
  AtEveryWidth fun W ex _ =>
  ∀ (i : Instr) (s t : State W), i.engine = .pf → ex i s = .next t →
    t.gf = s.gf ∧ (∀ j, t.gf.rcbuf.read j = s.gf.rcbuf.read j) ∧
    t.pf.cmd = s.pf.cmd ∧ t.pf.a = s.pf.a ∧ t.pf.b = s.pf.b ∧ t.pf.p = s.pf.p ∧
    t.hosts = s.hosts ∧ t.events = s.events ∧ t.tick = s.tick

/-- R38, R23, R21: what a command writes is a function of the registers it reads and of nothing else, whatever the rest of the two
states. MULINV does not read `PF_B`, ISPRIME reads `PF_P` alone, GENRCON no register. -/
def Obligations.OutcomeDependsOnReadOperandsOnly : Prop :=
  AtEveryWidth fun W ex _ =>
  (∀ (i : Instr) (s s' t t' : State W), i.engine = .pf → ex i s = .next t → ex i s' = .next t' →
    (i ≠ .isprime → s.pf.a = s'.pf.a) → (i ≠ .isprime → i ≠ .mulinv → s.pf.b = s'.pf.b) → s.pf.p = s'.pf.p →
    t.pf.r = t'.pf.r ∧ t.pf.status = t'.pf.status) ∧
  (∀ (i : Instr) (s s' t t' : State W), i.engine = .gf → ex i s = .next t → ex i s' = .next t' →
    (i = .xtime ∨ i = .rotword → s.gf.input = s'.gf.input) →
    t.gf.status = t'.gf.status ∧
    (i = .xtime ∨ i = .rotword → t.gf.out = t'.gf.out) ∧
    (∀ n, i = .genrcon n → t.gf.rclen = t'.gf.rclen ∧ t.gf.rcbuf = t'.gf.rcbuf))

/-! ### The whole machine -/

/-- R36, R85: when it is a busy engine's turn and its command register decodes to a well-formed command, the step is that command's
meaning on the state with the event taken. That `exec` is the completion, and that turns come from `events`, is the model's form
(log 1, 14); no pc moves (R24, log 4). -/
def Obligations.StepRunsTheDecodedCommand : Prop :=
  AtEveryWidth fun W ex st =>
  ∀ (s : State W) (e : Engine) (i : Instr) (evs : List Event),
    s.events = .turn (.engine e) :: evs → (s.status e).busy = true → decode e (s.cmd e) = .ok i →
    st s = ex i { s with events := evs } ∧ WellFormed e i

/-- R12: nothing is undefined; every step from every state answers a next state (log 13: there is no fault to raise). -/
def Obligations.EveryStepAnswersANextState : Prop :=
  AtEveryWidth fun W _ st =>
  ∀ s : State W, ∃ t, st s = .next t

/-- R39, R200: the state after reset, and the state a reset leaves whatever it met, hold zero in every architectural register, with
both engines idle, no command in progress and none reported. -/
def Obligations.ResetLeavesEveryRegisterZero : Prop :=
  State.reset = State.resetAt 256 ∧
  AtEveryWidth fun W _ st =>
  let allZero : State W → Prop := fun t =>
    (∀ l : Loc, t.readLoc l = 0) ∧ (∀ j, t.gf.rcbuf.read j = 0) ∧ t.pf.a = 0 ∧ t.pf.b = 0 ∧ t.pf.p = 0 ∧ t.pf.r = 0 ∧
    ∀ e, (t.status e).busy = false ∧ (t.status e).done = false ∧ (t.status e).err = false ∧ (t.status e).ecode = 0
  allZero (State.resetAt W) ∧
  ∀ (s : State W) (evs : List Event), s.events = .reset :: evs →
    ∃ t, st s = .next t ∧ allZero t ∧ t.gf = (State.resetAt W).gf ∧ t.pf = (State.resetAt W).pf

/-- R200, R201: reset takes every architectural register, from any state, to its reset value; a running command is abandoned; a host
read that was held is afterwards performed on the reset state. A reset is one event (log 1, 12). -/
def Obligations.ResetAbandonsCommandsAndLiftsHolds : Prop :=
  AtEveryWidth fun W _ st =>
  (∀ (s : State W) (evs : List Event), s.events = .reset :: evs →
    ∃ t, st s = .next t ∧ t.gf = (State.resetAt W).gf ∧ t.pf = (State.resetAt W).pf ∧ t.hosts = s.hosts ∧ t.events = evs) ∧
  (∀ (s : State W) (n : Nat) (h : HostPort) (l : Loc) (rest : List HostOp) (evs : List Event),
    s.events = .reset :: .turn (.host n) :: evs → s.hosts[n]? = some h →
    h.script = .access (.read 32 l.bits) :: rest → l.exists W = true →
    ∃ t, Host.Core.run (coreWith st) 2 s = .next t ∧
      t.hosts = s.hosts.set n { script := rest, replies := h.replies ++ [.value 0] })

/-- R28, R30 at reset: the status registers are legal and the buffer matches its length. -/
def Obligations.InvariantHoldsAtReset : Prop := State.reset.Inv ∧ ∀ W, Config.IsWidth W → (State.resetAt W).Inv

/-- R28, R30: every step keeps both status registers legal, the buffer in canonical form, and its contents the R_CON sequence up to
`GF_RCLEN` and 0x00 beyond. -/
def Obligations.EveryStepKeepsTheInvariant : Prop :=
  AtEveryWidth fun W _ st =>
  ∀ s t : State W, s.Inv → st s = .next t → t.Inv

/-- R28: a legal status register reads as one of eight values, and the invariant says so of both. -/
def Obligations.StatusReadsOneOfEightValues : Prop :=
  ∀ W, Config.IsWidth W →
  ∀ (s : State W) (e : Engine), s.Inv →
    ((s.status e).busy = true → (s.status e).done = false ∧ (s.status e).err = false ∧ (s.status e).ecode = 0) ∧
    ((s.status e).err = true ↔ (s.status e).ecode ≠ 0) ∧ ((s.status e).err = true → (s.status e).done = true) ∧
    (s.status e).ecode ≠ 6 ∧ (s.status e).ecode ≠ 7 ∧
    s.readLoc (statusLoc e) ∈
      [0x00000000#32, 0x00000001#32, 0x00000002#32, 0x00000016#32, 0x00000026#32, 0x00000036#32, 0x00000046#32,
       0x00000056#32]

/-- R34, R40: who may change what. Operand and command registers change only by a host's access or reset; output registers only by
their own engine's completion or reset; a status register only by its engine's completion, a host's access or reset. -/
def Obligations.RegistersHaveTheirWriters : Prop :=
  AtEveryWidth fun W _ st =>
  ∀ s t : State W, st s = .next t →
    (t.gf.cmd ≠ s.gf.cmd ∨ t.gf.input ≠ s.gf.input ∨ t.pf.cmd ≠ s.pf.cmd ∨ t.pf.a ≠ s.pf.a ∨ t.pf.b ≠ s.pf.b ∨
      t.pf.p ≠ s.pf.p → s.takeEvent.1 = .reset ∨ ∃ n, s.takeEvent.1 = .turn (.host n)) ∧
    (t.gf.out ≠ s.gf.out ∨ t.gf.rclen ≠ s.gf.rclen ∨ t.gf.rcbuf ≠ s.gf.rcbuf →
      s.takeEvent.1 = .reset ∨ s.takeEvent.1 = .turn (.engine .gf)) ∧
    (t.pf.r ≠ s.pf.r → s.takeEvent.1 = .reset ∨ s.takeEvent.1 = .turn (.engine .pf)) ∧
    (∀ e, t.status e ≠ s.status e →
      s.takeEvent.1 = .reset ∨ s.takeEvent.1 = .turn (.engine e) ∨ ∃ n, s.takeEvent.1 = .turn (.host n))

/-- R178: while an engine is idle, its status changes only by reset or by the next write to its own command register, which clears
`DONE`, `ERR` and `ECODE`. -/
def Obligations.ErrorsStandUntilTheNextCommand : Prop :=
  AtEveryWidth fun W _ st =>
  ∀ (s t : State W) (e : Engine), (s.status e).busy = false → st s = .next t → t.status e ≠ s.status e →
    (s.takeEvent.1 = .reset ∧ (t.status e).word = 0) ∨
    ∃ n h c rest, s.takeEvent.1 = .turn (.host n) ∧ s.hosts[n]? = some h ∧
      h.script = .access (.write 32 (cmdLoc e).bits c) :: rest ∧ t.cmd e = c ∧ (t.status e).word = 0x00000001#32

/-- R212, R36, R172: every command completes. In any state with `BUSY = 1` the completion of that engine is enabled: its turn, at
whatever time it comes, completes the command, with `BUSY = 0` and `DONE = 1`. And it comes: after finitely many steps, none of
which touches the engine's bank, it is the engine's turn, or a reset abandons the command (R201), and the next step leaves
`BUSY = 0`. That the turn comes is the weak fairness that R212 assumes; the model's schedule has it (log 1, 11). For a large
ISPRIME it is, as R212 says, true of the mathematics and false of any physical clock. -/
def Obligations.EveryCommandCompletes : Prop :=
  AtEveryWidth fun W _ st =>
  (∀ (s : State W) (e : Engine) (evs : List Event), s.events = .turn (.engine e) :: evs → (s.status e).busy = true →
    ∃ t, st s = .next t ∧ (t.status e).busy = false ∧ (t.status e).done = true ∧ t.events = evs) ∧
  (∀ (s : State W) (e : Engine), (s.status e).busy = true →
    ∃ k u t, Host.Core.run (coreWith st) k s = .next u ∧ (e = .gf → u.gf = s.gf) ∧ (e = .pf → u.pf = s.pf) ∧
      (u.takeEvent.1 = .turn (.engine e) ∨ u.takeEvent.1 = .reset) ∧
      st u = .next t ∧ (t.status e).busy = false ∧ (u.takeEvent.1 = .turn (.engine e) → (t.status e).done = true))

/-- R37: until a running command completes, whatever happens but reset, nothing of a busy bank changes: not its operands, not its command, not its
results. -/
def Obligations.BusyBankStandsStill : Prop :=
  AtEveryWidth fun W _ st =>
  ∀ (s t : State W) (e : Engine), (s.status e).busy = true → st s = .next t → s.takeEvent.1 ≠ .reset →
    s.takeEvent.1 ≠ .turn (.engine e) → (e = .gf → t.gf = s.gf) ∧ (e = .pf → t.pf = s.pf)

/-- R36, R37, R38, R60: a command that has started ends, at its engine's next turn, with exactly the bank that completing it at once
would have given, whatever the hosts and the other engine do in between. -/
def Obligations.CommandsLookAtomic : Prop :=
  AtEveryWidth fun W ex st =>
  ∀ (s : State W) (e : Engine) (evs rest : List Event), (s.status e).busy = true →
    s.events = evs ++ .turn (.engine e) :: rest → (∀ ev ∈ evs, ev ≠ .reset ∧ ev ≠ .turn (.engine e)) →
    ∃ t u, Host.Core.run (coreWith st) (evs.length + 1) s = .next t ∧ engineTurn ex e s = .next u ∧ t.events = rest ∧
      (e = .gf → t.gf = u.gf) ∧ (e = .pf → t.pf = u.pf)

/-- R37, R60: a read of a PF result register that is held for any number of turns returns, after the completion, the value the
completion wrote. -/
def Obligations.HeldReadReturnsTheResult : Prop :=
  AtEveryWidth fun W ex st =>
  ∀ (s : State W) (n m k : Nat) (h : HostPort) (rest : List HostOp) (evs : List Event), s.pf.status.busy = true → k < Config.NL W →
    s.events = List.replicate m (.turn (.host n)) ++ .turn (.engine .pf) :: .turn (.host n) :: evs →
    s.hosts[n]? = some h → h.script = .access (.read 32 (Loc.pfLimb .r k).bits) :: rest →
    ∃ t u, engineTurn ex .pf s = .next u ∧ Host.Core.run (coreWith st) (m + 2) s = .next t ∧ t.pf = u.pf ∧
      t.hosts = s.hosts.set n { script := rest, replies := h.replies ++ [.value (limb u.pf.r k)] }

/-- R34, R38, R206: the order in which the two engines have their turns does not matter to the state that results. -/
def Obligations.EngineOrderDoesNotMatter : Prop :=
  AtEveryWidth fun W _ st =>
  ∀ (s : State W) (evs : List Event),
    ∃ t, Host.Core.run (coreWith st) 2 { s with events := .turn (.engine .gf) :: .turn (.engine .pf) :: evs } = .next t ∧
      Host.Core.run (coreWith st) 2 { s with events := .turn (.engine .pf) :: .turn (.engine .gf) :: evs } = .next t

/-- R38, R184: no turn of one engine reads or writes the other bank: the other bank is unchanged, and two states that agree on the
engine's own bank agree on it afterwards. -/
def Obligations.EnginesShareNoState : Prop :=
  AtEveryWidth fun W ex _ =>
  (∀ s t : State W, engineTurn ex .gf s = .next t → t.pf = s.pf ∧ t.hosts = s.hosts) ∧
  (∀ s t : State W, engineTurn ex .pf s = .next t → t.gf = s.gf ∧ t.hosts = s.hosts) ∧
  (∀ s s' t t' : State W, s.gf = s'.gf → engineTurn ex .gf s = .next t → engineTurn ex .gf s' = .next t' → t.gf = t'.gf) ∧
  (∀ s s' t t' : State W, s.pf = s'.pf → engineTurn ex .pf s = .next t → engineTurn ex .pf s' = .next t' → t.pf = t'.pf)

/-- R206, R186: when a run has ended, no further turn changes any register of the block or any host's script or replies. -/
def Obligations.EndedRunStandsStill : Prop :=
  AtEveryWidth fun W _ st =>
  ∀ s t : State W, s.ended → st s = .next t → s.takeEvent.1 ≠ .reset →
    t.gf = s.gf ∧ t.pf = s.pf ∧ t.hosts = s.hosts
end

