-- ==== Sys2Proof/Laws/State.lean ====
section
/-! SUPPORT. One lemma per field per update of the state, each true by definition, so that no later proof unfolds a record
update. -/

namespace Sys2Proof.Machine

open Sys2Proof

variable {W : Nat}

/-! ### One status or command register -/

@[simp] theorem State.setStatus_gf_gf (s : State W) (st : Status) :
    (s.setStatus .gf st).gf = { s.gf with status := st } := rfl

@[simp] theorem State.setStatus_gf_pf (s : State W) (st : Status) :
    (s.setStatus .gf st).pf = s.pf := rfl

@[simp] theorem State.setStatus_gf_hosts (s : State W) (st : Status) :
    (s.setStatus .gf st).hosts = s.hosts := rfl

@[simp] theorem State.setStatus_gf_events (s : State W) (st : Status) :
    (s.setStatus .gf st).events = s.events := rfl

@[simp] theorem State.setStatus_gf_tick (s : State W) (st : Status) :
    (s.setStatus .gf st).tick = s.tick := rfl

@[simp] theorem State.setCmd_gf_gf (s : State W) (c : Word) :
    (s.setCmd .gf c).gf = { s.gf with cmd := c } := rfl

@[simp] theorem State.setCmd_gf_pf (s : State W) (c : Word) :
    (s.setCmd .gf c).pf = s.pf := rfl

@[simp] theorem State.setCmd_gf_hosts (s : State W) (c : Word) :
    (s.setCmd .gf c).hosts = s.hosts := rfl

@[simp] theorem State.setCmd_gf_events (s : State W) (c : Word) :
    (s.setCmd .gf c).events = s.events := rfl

@[simp] theorem State.setCmd_gf_tick (s : State W) (c : Word) :
    (s.setCmd .gf c).tick = s.tick := rfl

@[simp] theorem State.status_gf (s : State W) :
    s.status .gf = s.gf.status := rfl

@[simp] theorem State.cmd_gf (s : State W) :
    s.cmd .gf = s.gf.cmd := rfl

@[simp] theorem State.setStatus_pf_gf (s : State W) (st : Status) :
    (s.setStatus .pf st).gf = s.gf := rfl

@[simp] theorem State.setStatus_pf_pf (s : State W) (st : Status) :
    (s.setStatus .pf st).pf = { s.pf with status := st } := rfl

@[simp] theorem State.setStatus_pf_hosts (s : State W) (st : Status) :
    (s.setStatus .pf st).hosts = s.hosts := rfl

@[simp] theorem State.setStatus_pf_events (s : State W) (st : Status) :
    (s.setStatus .pf st).events = s.events := rfl

@[simp] theorem State.setStatus_pf_tick (s : State W) (st : Status) :
    (s.setStatus .pf st).tick = s.tick := rfl

@[simp] theorem State.setCmd_pf_gf (s : State W) (c : Word) :
    (s.setCmd .pf c).gf = s.gf := rfl

@[simp] theorem State.setCmd_pf_pf (s : State W) (c : Word) :
    (s.setCmd .pf c).pf = { s.pf with cmd := c } := rfl

@[simp] theorem State.setCmd_pf_hosts (s : State W) (c : Word) :
    (s.setCmd .pf c).hosts = s.hosts := rfl

@[simp] theorem State.setCmd_pf_events (s : State W) (c : Word) :
    (s.setCmd .pf c).events = s.events := rfl

@[simp] theorem State.setCmd_pf_tick (s : State W) (c : Word) :
    (s.setCmd .pf c).tick = s.tick := rfl

@[simp] theorem State.status_pf (s : State W) :
    s.status .pf = s.pf.status := rfl

@[simp] theorem State.cmd_pf (s : State W) :
    s.cmd .pf = s.pf.cmd := rfl

/-! ### Output registers -/

@[simp] theorem State.write_gfOut_gf (s : State W) (v : Word) :
    (s.write (.gfOut v)).gf = { s.gf with out := v } := rfl

@[simp] theorem State.write_gfOut_pf (s : State W) (v : Word) :
    (s.write (.gfOut v)).pf = s.pf := rfl

@[simp] theorem State.write_gfOut_hosts (s : State W) (v : Word) :
    (s.write (.gfOut v)).hosts = s.hosts := rfl

@[simp] theorem State.write_gfOut_events (s : State W) (v : Word) :
    (s.write (.gfOut v)).events = s.events := rfl

@[simp] theorem State.write_gfOut_tick (s : State W) (v : Word) :
    (s.write (.gfOut v)).tick = s.tick := rfl

@[simp] theorem State.write_gfRcon_gf (s : State W) (n : BitVec 8) (bytes : List Byte) :
    (s.write (.gfRcon n bytes)).gf = { s.gf with rclen := n, rcbuf := Memory.ofBytes 1 bytes } := rfl

@[simp] theorem State.write_gfRcon_pf (s : State W) (n : BitVec 8) (bytes : List Byte) :
    (s.write (.gfRcon n bytes)).pf = s.pf := rfl

@[simp] theorem State.write_gfRcon_hosts (s : State W) (n : BitVec 8) (bytes : List Byte) :
    (s.write (.gfRcon n bytes)).hosts = s.hosts := rfl

@[simp] theorem State.write_gfRcon_events (s : State W) (n : BitVec 8) (bytes : List Byte) :
    (s.write (.gfRcon n bytes)).events = s.events := rfl

@[simp] theorem State.write_gfRcon_tick (s : State W) (n : BitVec 8) (bytes : List Byte) :
    (s.write (.gfRcon n bytes)).tick = s.tick := rfl

@[simp] theorem State.write_pfR_gf (s : State W) (v : PfWord W) :
    (s.write (.pfR v)).gf = s.gf := rfl

@[simp] theorem State.write_pfR_pf (s : State W) (v : PfWord W) :
    (s.write (.pfR v)).pf = { s.pf with r := v } := rfl

@[simp] theorem State.write_pfR_hosts (s : State W) (v : PfWord W) :
    (s.write (.pfR v)).hosts = s.hosts := rfl

@[simp] theorem State.write_pfR_events (s : State W) (v : PfWord W) :
    (s.write (.pfR v)).events = s.events := rfl

@[simp] theorem State.write_pfR_tick (s : State W) (v : PfWord W) :
    (s.write (.pfR v)).tick = s.tick := rfl

/-! ### Start and reset -/

@[simp] theorem State.start_gf_gf (s : State W) (c : Word) :
    (s.start .gf c).gf = { s.gf with cmd := c, status := s.gf.status.start } := rfl

@[simp] theorem State.start_gf_pf (s : State W) (c : Word) :
    (s.start .gf c).pf = s.pf := rfl

@[simp] theorem State.start_gf_hosts (s : State W) (c : Word) :
    (s.start .gf c).hosts = s.hosts := rfl

@[simp] theorem State.start_gf_events (s : State W) (c : Word) :
    (s.start .gf c).events = s.events := rfl

@[simp] theorem State.start_gf_tick (s : State W) (c : Word) :
    (s.start .gf c).tick = s.tick := rfl

@[simp] theorem State.start_pf_gf (s : State W) (c : Word) :
    (s.start .pf c).gf = s.gf := rfl

@[simp] theorem State.start_pf_pf (s : State W) (c : Word) :
    (s.start .pf c).pf = { s.pf with cmd := c, status := s.pf.status.start } := rfl

@[simp] theorem State.start_pf_hosts (s : State W) (c : Word) :
    (s.start .pf c).hosts = s.hosts := rfl

@[simp] theorem State.start_pf_events (s : State W) (c : Word) :
    (s.start .pf c).events = s.events := rfl

@[simp] theorem State.start_pf_tick (s : State W) (c : Word) :
    (s.start .pf c).tick = s.tick := rfl

@[simp] theorem State.assertReset_gf (s : State W) :
    (s.assertReset).gf = GfBank.reset := rfl

@[simp] theorem State.assertReset_pf (s : State W) :
    (s.assertReset).pf = PfBank.reset := rfl

@[simp] theorem State.assertReset_hosts (s : State W) :
    (s.assertReset).hosts = s.hosts := rfl

@[simp] theorem State.assertReset_events (s : State W) :
    (s.assertReset).events = s.events := rfl

@[simp] theorem State.assertReset_tick (s : State W) :
    (s.assertReset).tick = s.tick := rfl

/-! ### Operand registers -/

@[simp] theorem State.setPfOperand_a_gf (s : State W) (v : PfWord W) :
    (s.setPfOperand .a v).gf = s.gf := rfl

@[simp] theorem State.setPfOperand_a_pf (s : State W) (v : PfWord W) :
    (s.setPfOperand .a v).pf = { s.pf with a := v } := rfl

@[simp] theorem State.setPfOperand_a_hosts (s : State W) (v : PfWord W) :
    (s.setPfOperand .a v).hosts = s.hosts := rfl

@[simp] theorem State.setPfOperand_a_events (s : State W) (v : PfWord W) :
    (s.setPfOperand .a v).events = s.events := rfl

@[simp] theorem State.setPfOperand_a_tick (s : State W) (v : PfWord W) :
    (s.setPfOperand .a v).tick = s.tick := rfl

@[simp] theorem State.setPfOperand_b_gf (s : State W) (v : PfWord W) :
    (s.setPfOperand .b v).gf = s.gf := rfl

@[simp] theorem State.setPfOperand_b_pf (s : State W) (v : PfWord W) :
    (s.setPfOperand .b v).pf = { s.pf with b := v } := rfl

@[simp] theorem State.setPfOperand_b_hosts (s : State W) (v : PfWord W) :
    (s.setPfOperand .b v).hosts = s.hosts := rfl

@[simp] theorem State.setPfOperand_b_events (s : State W) (v : PfWord W) :
    (s.setPfOperand .b v).events = s.events := rfl

@[simp] theorem State.setPfOperand_b_tick (s : State W) (v : PfWord W) :
    (s.setPfOperand .b v).tick = s.tick := rfl

@[simp] theorem State.setPfOperand_p_gf (s : State W) (v : PfWord W) :
    (s.setPfOperand .p v).gf = s.gf := rfl

@[simp] theorem State.setPfOperand_p_pf (s : State W) (v : PfWord W) :
    (s.setPfOperand .p v).pf = { s.pf with p := v } := rfl

@[simp] theorem State.setPfOperand_p_hosts (s : State W) (v : PfWord W) :
    (s.setPfOperand .p v).hosts = s.hosts := rfl

@[simp] theorem State.setPfOperand_p_events (s : State W) (v : PfWord W) :
    (s.setPfOperand .p v).events = s.events := rfl

@[simp] theorem State.setPfOperand_p_tick (s : State W) (v : PfWord W) :
    (s.setPfOperand .p v).tick = s.tick := rfl

@[simp] theorem State.setPfOperand_r (s : State W) (v : PfWord W) : s.setPfOperand .r v = s := rfl

/-! ### Replies -/

@[simp] theorem State.answer_gf (s : State W) (n : Nat) (h : HostPort) (r : Reply) (rest : List HostOp) :
    (s.answer n h r rest).gf = s.gf := rfl

@[simp] theorem State.answer_pf (s : State W) (n : Nat) (h : HostPort) (r : Reply) (rest : List HostOp) :
    (s.answer n h r rest).pf = s.pf := rfl

@[simp] theorem State.answer_hosts (s : State W) (n : Nat) (h : HostPort) (r : Reply) (rest : List HostOp) :
    (s.answer n h r rest).hosts = s.hosts.set n { script := rest, replies := h.replies ++ [r] } := rfl

@[simp] theorem State.answer_events (s : State W) (n : Nat) (h : HostPort) (r : Reply) (rest : List HostOp) :
    (s.answer n h r rest).events = s.events := rfl

@[simp] theorem State.answer_tick (s : State W) (n : Nat) (h : HostPort) (r : Reply) (rest : List HostOp) :
    (s.answer n h r rest).tick = s.tick := rfl

/-! ### Status values -/

@[simp] theorem Status.start_busy (st : Status) :
    (st.start).busy = true := rfl

@[simp] theorem Status.start_done (st : Status) :
    (st.start).done = false := rfl

@[simp] theorem Status.start_err (st : Status) :
    (st.start).err = false := rfl

@[simp] theorem Status.start_ecode (st : Status) :
    (st.start).ecode = 0#3 := rfl

@[simp] theorem Status.complete_busy (st : Status) :
    (st.complete).busy = false := rfl

@[simp] theorem Status.complete_done (st : Status) :
    (st.complete).done = true := rfl

@[simp] theorem Status.complete_err (st : Status) :
    (st.complete).err = false := rfl

@[simp] theorem Status.complete_ecode (st : Status) :
    (st.complete).ecode = 0#3 := rfl

@[simp] theorem Status.raise_busy (st : Status) (x : CommandError) :
    (st.raise x).busy = false := rfl

@[simp] theorem Status.raise_done (st : Status) (x : CommandError) :
    (st.raise x).done = true := rfl

@[simp] theorem Status.raise_err (st : Status) (x : CommandError) :
    (st.raise x).err = true := rfl

@[simp] theorem Status.raise_ecode (st : Status) (x : CommandError) :
    (st.raise x).ecode = x.code := rfl

end Sys2Proof.Machine
end

