-- ==== Sys2Proof/Laws/Ops.lean ====
section
/-! SUPPORT. What each shared operation of a command's life does, once: the words the status register reads after it, and the
state it leaves. -/

namespace Sys2Proof.Machine

open Sys2Proof

variable {W : Nat}

/-! ### The words of R28 -/

@[simp] theorem Status.reset_word : Status.reset.word = 0x00000000#32 := rfl

@[simp] theorem Status.start_word (st : Status) : st.start.word = 0x00000001#32 := by
  simp only [Status.word, Status.start]; decide

@[simp] theorem Status.complete_word (st : Status) : st.complete.word = 0x00000002#32 := by
  simp only [Status.word, Status.complete]; decide

/-- The status after an error: `0x00000006` with the code in bits 6:4. -/
theorem Status.raise_word (st : Status) (x : CommandError) :
    (st.raise x).word = match x with
      | .invalidInput => 0x00000016#32
      | .divisionByZero => 0x00000026#32
      | .invalidInverse => 0x00000036#32
      | .domainError => 0x00000046#32
      | .illegalCommand => 0x00000056#32 := by
  cases x <;> (simp only [Status.word, Status.raise, CommandError.code]; decide)

/-! ### Completion -/

/-- The number a PF command leaves in `PF_R`: its result, or the zero of an error (R173). -/
theorem State.finishPf_eq (s : State W) (res : Except CommandError Nat) :
    s.finishPf res = { s with pf := { s.pf with
      r := match res with
        | .ok n => pfWord n
        | .error _ => 0
      status := match res with
        | .ok _ => s.pf.status.complete
        | .error x => s.pf.status.raise x } } := by
  cases res <;> rfl

/-- A GF command that writes `GF_OUT`: the value, or the zero of an error. -/
theorem State.finish_gfOut (s : State W) (v : Word) (res : Except CommandError Word) :
    s.finish .gf (.gfOut v) (res.map Output.gfOut) = { s with gf := { s.gf with
      out := match res with
        | .ok w => w
        | .error _ => 0
      status := match res with
        | .ok _ => s.gf.status.complete
        | .error x => s.gf.status.raise x } } := by
  cases res <;> rfl

/-- GENRCON's completion with a count of at least 1 and with a count of 0. -/
theorem State.finish_genrcon (s : State W) (count : BitVec 8) :
    s.finish .gf (.gfRcon 0#8 []) (genrconResult count) =
      if count.toNat < 1 then
        { s with gf := { s.gf with rclen := 0#8, rcbuf := [], status := s.gf.status.raise .invalidInput } }
      else { s with gf := { s.gf with
        rclen := count, rcbuf := Memory.ofBytes 1 (rconBytes count.toNat), status := s.gf.status.complete } } := by
  unfold genrconResult; split <;> rfl

/-- The completion of an illegal word writes the status of its engine and nothing else (R173). -/
theorem State.raiseIllegal_eq (s : State W) (e : Engine) :
    s.raiseIllegal e = s.setStatus e ((s.status e).raise .illegalCommand) := rfl

/-! ### Taking an event -/

theorem State.takeEvent_cons {s : State W} {ev : Event} {evs : List Event} (h : s.events = ev :: evs) :
    s.takeEvent = (ev, { s with events := evs }) := by
  simp [State.takeEvent, h]

/-- When no event is listed, the first of a block is taken, and the rest of the block is listed: whatever the block holds, its last
event is the turn it owes. -/
theorem State.takeEvent_nil {s : State W} (h : s.events = []) :
    ∃ ev evs, s.takeEvent = (ev, { s with events := evs, tick := s.tick + 1 }) ∧
      ev :: evs = Config.between s.tick ++ [.turn (.engine (Config.due s.tick))] := by
  unfold State.takeEvent
  cases hb : Config.between s.tick with
  | nil => exact ⟨_, [], by simp [h], rfl⟩
  | cons ev rest => exact ⟨ev, _, by simp [h], rfl⟩

/-- Taking an event changes neither bank and no host. -/
theorem State.takeEvent_keeps (s : State W) :
    s.takeEvent.2.gf = s.gf ∧ s.takeEvent.2.pf = s.pf ∧ s.takeEvent.2.hosts = s.hosts := by
  cases h : s.events with
  | cons ev evs => rw [State.takeEvent_cons h]; exact ⟨rfl, rfl, rfl⟩
  | nil => obtain ⟨ev, evs, he, -⟩ := State.takeEvent_nil h; rw [he]; exact ⟨rfl, rfl, rfl⟩

end Sys2Proof.Machine
end

