-- ==== Sys2Proof/Laws/Bus.lean ====
section
/-! SUPPORT. The address map read from a location to its offset and back, and what a host's turn can do. -/

namespace Sys2Proof.Machine

open Sys2Proof

variable {W : Nat}

/-- What is found at an offset is a location of the map, at that offset. -/
theorem locate_some {off : BitVec 12} {l : Loc} (h : locate W off = some l) : l.exists W = true ∧ off.toNat = l.offset := by
  have hf := List.find?_some h
  rw [Bool.and_eq_true, beq_iff_eq] at hf
  exact ⟨hf.1, hf.2.symm⟩

/-- A location is among the candidates of its own offset. -/
theorem Loc.mem_candidates (l : Loc) : l ∈ Loc.candidates l.offset := by
  cases l with
  | pfLimb x k => cases x <;> simp [Loc.candidates, Loc.offset, PfReg.windowBase]
  | _ => simp [Loc.candidates, Loc.offset]

/-- The number of limbs of the widest register is that of a window: no two windows meet (R51, D8). -/
theorem Loc.offset_range {l : Loc} (hW : W ≤ 4096) (h : l.exists W = true) :
    (l.bank = .gf → l.offset ≤ 0x1FC) ∧ (l.bank = .pf → 0x200 ≤ l.offset ∧ l.offset ≤ 0xBFC) := by
  cases l with
  | gfRcbuf m => have hm : m < 64 := of_decide_eq_true h; simp [Loc.bank, Loc.offset]; omega
  | pfLimb x k =>
    have hk : k < W / 32 := of_decide_eq_true h
    cases x <;> simp [Loc.bank, Loc.offset, PfReg.windowBase] <;> omega
  | _ => simp [Loc.bank, Loc.offset]

/-- No two locations of the map stand at one offset. -/
theorem Loc.offset_inj {l m : Loc} (hW : W ≤ 4096) (hl : l.exists W = true) (hm : m.exists W = true)
    (h : l.offset = m.offset) : l = m := by
  have hk : ∀ x k, (Loc.pfLimb x k).exists W = true → k < 128 := fun x k hx => by
    have : k < W / 32 := of_decide_eq_true hx
    omega
  have hb : ∀ n, (Loc.gfRcbuf n).exists W = true → n < 64 := fun n hn => of_decide_eq_true hn
  cases l with
  | pfLimb x k =>
    have := hk x k hl
    cases m with
    | pfLimb y j => have := hk y j hm; cases x <;> cases y <;> simp [Loc.offset, PfReg.windowBase] at h ⊢ <;> omega
    | gfRcbuf n => have := hb n hm; cases x <;> simp [Loc.offset, PfReg.windowBase] at h <;> omega
    | _ => cases x <;> simp [Loc.offset, PfReg.windowBase] at h <;> omega
  | gfRcbuf n =>
    have := hb n hl
    cases m with
    | pfLimb y j => cases y <;> simp [Loc.offset, PfReg.windowBase] at h <;> omega
    | _ => simp [Loc.offset] at h ⊢ <;> omega
  | _ =>
    cases m with
    | pfLimb y j => cases y <;> simp [Loc.offset, PfReg.windowBase] at h <;> omega
    | gfRcbuf n => have := hb n hm; simp [Loc.offset] at h; omega
    | _ => simp [Loc.offset] at h ⊢

/-- A location of the map is what is found at its offset. -/
theorem locate_of_offset {off : BitVec 12} {l : Loc} (hW : W ≤ 4096) (h : l.exists W = true) (ho : off.toNat = l.offset) :
    locate W off = some l := by
  cases hf : locate W off with
  | none =>
    have := List.find?_eq_none.1 hf l (ho ▸ l.mem_candidates)
    simp [h, ho] at this
  | some m =>
    obtain ⟨hm, hmo⟩ := locate_some hf
    rw [Loc.offset_inj hW h hm (ho.symm.trans hmo)]

/-- The offset of a location of the map is a multiple of 4. -/
theorem Loc.offset_aligned (l : Loc) : l.offset % 4 = 0 := by
  cases l with
  | pfLimb x k => cases x <;> simp only [Loc.offset, PfReg.windowBase] <;> omega
  | gfRcbuf m => simp only [Loc.offset]; omega
  | _ => rfl

/-- The offset of a location of the map fits the 12 bits of an access. -/
theorem Loc.bits_toNat {l : Loc} (hW : W ≤ 4096) (h : l.exists W = true) : l.bits.toNat = l.offset := by
  have := Loc.offset_range hW h
  rw [Loc.bits, BitVec.toNat_ofNat]
  cases hb : l.bank <;> simp [hb] at this <;> omega

/-- An access is made at a location exactly when it is 32 bits wide and the location is one of the map's, at its offset. -/
theorem locateAligned_iff {width : Nat} {off : BitVec 12} {l : Loc} (hW : W ≤ 4096) :
    locateAligned W width off = some l ↔ width = 32 ∧ l.exists W = true ∧ off.toNat = l.offset := by
  unfold locateAligned
  constructor
  · split
    · rename_i hc; exact fun h => ⟨hc.1, locate_some h⟩
    · exact fun h => nomatch h
  · rintro ⟨rfl, hl, ho⟩
    rw [if_pos ⟨rfl, ho ▸ l.offset_aligned⟩]
    exact locate_of_offset hW hl ho

/-- What an access is made at is known by its offset alone: an access made at a location is 32 bits wide. -/
theorem locateAligned_some {width : Nat} {off : BitVec 12} {l : Loc} (h : locateAligned W width off = some l) :
    width = 32 ∧ l.exists W = true ∧ off.toNat = l.offset := by
  unfold locateAligned at h
  split at h
  · rename_i hc; exact ⟨hc.1, locate_some h⟩
  · cases h

/-- A host's turn takes no event and advances no counter. -/
theorem State.hostTurn_keeps (s : State W) (n : Nat) :
    (s.hostTurn n).events = s.events ∧ (s.hostTurn n).tick = s.tick := by
  have hw : ∀ (l : Loc) (v : Word), (s.writeLoc l v).events = s.events ∧ (s.writeLoc l v).tick = s.tick := by
    intro l v
    cases l with
    | pfLimb x k => cases x <;> exact ⟨rfl, rfl⟩
    | _ => exact ⟨rfl, rfl⟩
  unfold State.hostTurn State.hostAccess State.hostWait State.perform
  repeat' split
  all_goals first
    | exact ⟨rfl, rfl⟩
    | simp [hw]

/-- What a host's turn can do to the banks: nothing, or perform a write to a writable location of an idle bank. -/
theorem State.hostTurn_banks (s : State W) (n : Nat) :
    ((s.hostTurn n).gf = s.gf ∧ (s.hostTurn n).pf = s.pf) ∨
    ∃ h off v rest l, s.hosts[n]? = some h ∧ h.script = .access (.write 32 off v) :: rest ∧
      locateAligned W 32 off = some l ∧ l.writable = true ∧ (s.status l.bank).busy = false ∧
      s.hostTurn n = (s.writeLoc l v).answer n h .written rest := by
  cases hh : s.hosts[n]? with
  | none => left; simp [State.hostTurn, hh]
  | some h =>
    cases hs : h.script with
    | nil => left; simp [State.hostTurn, hh, hs]
    | cons op rest =>
      cases op with
      | wait e => left; simp [State.hostTurn, hh, hs, State.hostWait]
      | access a =>
        cases ht : a.target W with
        | none => left; simp [State.hostTurn, hh, hs, State.hostAccess, ht]
        | some l =>
          by_cases hb : s.held l = true
          · left; simp [State.hostTurn, hh, hs, State.hostAccess, ht, hb]
          · cases a with
            | read w off => left; simp [State.hostTurn, hh, hs, State.hostAccess, ht, hb, State.perform]
            | write w off v =>
              right
              simp only [Access.target, Option.filter_eq_some_iff] at ht
              obtain ⟨rfl, -⟩ := locateAligned_some ht.1
              refine ⟨h, off, v, rest, l, rfl, hs, ht.1, ht.2, ?_, ?_⟩
              · have hst : l.isStatus = false := by cases l <;> simp_all [Loc.writable, Loc.isStatus]
                simpa [State.held, hst] using hb
              · have ht' : (Access.write 32 off v).target W = some l := by
                  simp [Access.target, ht.1, ht.2]
                simp [State.hostTurn, hh, hs, State.hostAccess, ht', hb, State.perform]

end Sys2Proof.Machine
end

