-- ==== Sys2Proof/Laws/Fair.lean ====
section
/-! SUPPORT. The form the model gives its schedule shuts out no fair one (70_reset_and_hazards.md R212, log 11). -/

namespace Sys2Proof

/-- An endless order of events in which each engine has infinitely many turns is a sequence of blocks, each ended by the turn it
owes: for every number of blocks, they are the beginning of that order. -/
theorem fair_order_is_blocks (σ : Nat → Event) (h : ∀ e n, ∃ m, n ≤ m ∧ σ m = .turn (.engine e)) :
    ∃ between : Nat → List Event, ∀ N, ∃ L, N ≤ L ∧
      (List.range N).flatMap (fun k => between k ++ [.turn (.engine (Config.due k))]) = (List.range L).map σ := by
  choose next hle hnext using h
  let start : Nat → Nat := Nat.rec 0 (fun k p => next (Config.due k) p + 1)
  refine ⟨fun k => (List.range' (start k) (next (Config.due k) (start k) - start k)).map σ, fun N => ⟨start N, ?_, ?_⟩⟩
  · induction N with
    | zero => exact Nat.zero_le _
    | succ N ih => exact Nat.succ_le_succ (ih.trans (hle (Config.due N) (start N)))
  · induction N with
    | zero => rfl
    | succ N ih =>
      have hs : start (N + 1) = start N + (next (Config.due N) (start N) - start N) + 1 := by
        have := hle (Config.due N) (start N)
        show next (Config.due N) (start N) + 1 = _
        omega
      rw [List.range_succ, List.flatMap_append, ih, hs, List.range_succ, List.range_add, List.map_append, List.map_append,
        List.append_assoc]
      congr 1
      have := hle (Config.due N) (start N)
      simp [List.range'_eq_map_range, hnext, show start N + (next (Config.due N) (start N) - start N) =
        next (Config.due N) (start N) by omega]

end Sys2Proof
end

