-- ==== Sys2Proof/Laws/Gf256.lean ====
section
/-! SUPPORT. The generator's loop delivers the R_CON sequence and then zeros. -/

namespace Sys2Proof.Machine

open Sys2Proof

theorem rconLoop_length (count n j : Nat) (rc : Byte) : (rconLoop count n j rc).length = n := by
  induction n generalizing j rc with
  | zero => rfl
  | succ n ih => simp only [rconLoop]; split <;> simp [ih]

theorem rconBytes_length (count : Nat) : (rconBytes count).length = Config.rcMax :=
  rconLoop_length _ _ _ _

/-- Once past the count the loop delivers zeros only. -/
theorem rconLoop_beyond (count n j : Nat) (rc : Byte) (h : count < j) (i : Nat) :
    (rconLoop count n j rc).getD i 0#8 = 0#8 := by
  induction n generalizing j i with
  | zero => rfl
  | succ n ih =>
    simp only [rconLoop, if_neg (Nat.not_le.2 h)]
    cases i with
    | zero => rfl
    | succ i => simpa using ih (j + 1) (by omega) i

/-- Started with `rcon (j - 1)` in the LFSR, the loop delivers `rcon j`, `rcon (j + 1)`, ... up to the count, then zeros. -/
theorem rconLoop_getD (count n j i : Nat) (hi : i < n) :
    (rconLoop count n (j + 1) (rcon j)).getD i 0#8 = if j + 1 + i ≤ count then rcon (j + 1 + i) else 0#8 := by
  induction n generalizing j i with
  | zero => omega
  | succ n ih =>
    by_cases hj : j + 1 ≤ count
    · simp only [rconLoop, if_pos hj]
      cases i with
      | zero => simp [hj, rcon]
      | succ i =>
        have := ih (j + 1) i (by omega)
        simp only [rcon] at this
        simpa [show j + 1 + 1 + i = j + 1 + (i + 1) by omega] using this
    · rw [rconLoop_beyond _ _ _ _ (by omega), if_neg (by omega)]

/-- Byte `j` of the buffer GENRCON writes (R105). -/
theorem rconBytes_getD (count j : Nat) (h1 : 1 ≤ j) (h2 : j ≤ Config.rcMax) :
    (rconBytes count).getD (j - 1) 0#8 = if j ≤ count then rcon j else 0#8 := by
  have := rconLoop_getD count Config.rcMax 0 (j - 1) (by omega)
  simpa [rconBytes, show 0 + 1 + (j - 1) = j by omega, rcon] using this

end Sys2Proof.Machine
end

