-- ==== Sys2Proof/Laws/Memory.lean ====
section
/-! SUPPORT. The laws of the R_CON buffer: the one operation that writes it yields the canonical form, and what is read back is
what was written. -/

namespace Sys2Proof.Machine

open Sys2Proof

theorem Memory.wfFrom_mono {m : Memory} {i j : Nat} (h : Memory.wfFrom j m = true) (hij : i ≤ j) :
    Memory.wfFrom i m = true := by
  cases m with
  | nil => rfl
  | cons c m =>
    obtain ⟨k, v⟩ := c
    simp only [Memory.wfFrom, Bool.and_eq_true, decide_eq_true_eq] at h ⊢
    exact ⟨⟨hij.trans h.1.1, h.1.2⟩, h.2⟩

/-- The buffer made of bytes that fit is in canonical form. -/
theorem Memory.ofBytes_wfFrom (bytes : List Byte) (j : Nat) (h : j + bytes.length ≤ Config.rcMax + 1) :
    Memory.wfFrom j (Memory.ofBytes j bytes) = true := by
  induction bytes generalizing j with
  | nil => rfl
  | cons v vs ih =>
    simp only [List.length_cons] at h
    have ih' := ih (j + 1) (by omega)
    by_cases hv : v = 0#8
    · simpa [Memory.ofBytes, hv] using Memory.wfFrom_mono ih' (Nat.le_succ j)
    · simp only [Memory.ofBytes, hv, if_false, Memory.wfFrom, Bool.and_eq_true, decide_eq_true_eq]
      exact ⟨⟨le_refl j, by omega, hv⟩, ih'⟩

/-- The one memory operation keeps the canonical form. -/
theorem Memory.ofBytes_wf (bytes : List Byte) (h : bytes.length ≤ Config.rcMax) :
    (Memory.ofBytes 1 bytes).wf = true :=
  Memory.ofBytes_wfFrom bytes 1 (by omega)

/-- The buffer after reset is in canonical form. -/
theorem Memory.reset_wf : Memory.wf State.reset.gf.rcbuf = true := rfl

theorem Memory.lookup_ofBytes_below (bytes : List Byte) {i j : Nat} (h : i < j) :
    (Memory.ofBytes j bytes).lookup i = 0#8 := by
  induction bytes generalizing j with
  | nil => rfl
  | cons v vs ih =>
    have ih' := ih (j := j + 1) (by omega)
    by_cases hv : v = 0#8
    · simpa [Memory.ofBytes, hv] using ih'
    · rw [Memory.ofBytes, if_neg hv, Memory.lookup, if_neg (by omega), ih']

theorem Memory.lookup_ofBytes (bytes : List Byte) (j i : Nat) :
    (Memory.ofBytes j bytes).lookup (j + i) = bytes.getD i 0#8 := by
  induction bytes generalizing j i with
  | nil => simp [Memory.ofBytes, Memory.lookup]
  | cons v vs ih =>
    cases i with
    | zero =>
      by_cases hv : v = 0#8
      · simpa [Memory.ofBytes, hv] using Memory.lookup_ofBytes_below vs (Nat.lt_succ_self j)
      · rw [Memory.ofBytes, if_neg hv, Memory.lookup, if_pos (by omega)]; rfl
    | succ i =>
      have ih' := ih (j + 1) i
      rw [show j + 1 + i = j + (i + 1) by omega] at ih'
      by_cases hv : v = 0#8
      · simpa [Memory.ofBytes, hv] using ih'
      · rw [Memory.ofBytes, if_neg hv, Memory.lookup, if_neg (by omega), ih']; rfl

/-- Reading back byte `j` of a buffer made of bytes: the byte at place `j - 1`. -/
theorem Memory.read_ofBytes (bytes : List Byte) {j : Nat} (h1 : 1 ≤ j) (h2 : j ≤ Config.rcMax) :
    (Memory.ofBytes 1 bytes).read j = bytes.getD (j - 1) 0#8 := by
  have := Memory.lookup_ofBytes bytes 1 (j - 1)
  rw [show 1 + (j - 1) = j by omega] at this
  simpa [Memory.read, h1, h2] using this

end Sys2Proof.Machine
end

