-- ==== Sys2Proof/Laws/PerInstr.lean ====
section
/-! SUPPORT. A fact about every command as it is written, one lemma per constructor: the fields of its word (R80, R81). -/

namespace Sys2Proof.Laws.Fields

open Sys2Proof

/-- The word of a command has `ZERO` 0, its own `OPC` and `CNT`, and `OPC[7:4]` names its engine: 0 for GF, 1 for PF (R81). -/
def Statement (i : Instr) : Prop :=
  zeroField (encode i) = 0#16 ∧ opcField (encode i) = i.opcode ∧ cntField (encode i) = i.countBits ∧
  i.opcode.extractLsb' 4 4 = (match i.engine with
    | .gf => 0#4
    | .pf => 1#4)

/-- The fields of a word put together from its parts. -/
theorem fields_append (cnt opc : BitVec 8) :
    zeroField (0#16 ++ cnt ++ opc) = 0#16 ∧ opcField (0#16 ++ cnt ++ opc) = opc ∧ cntField (0#16 ++ cnt ++ opc) = cnt := by
  refine ⟨?_, ?_, ?_⟩ <;>
    (apply BitVec.eq_of_getLsbD_eq; intro i hi
     simp only [zeroField, opcField, cntField, BitVec.getLsbD_extractLsb', BitVec.getLsbD_append]
     simp [hi, show ¬ (8 + i < 8) by omega, show ¬ (16 + i < 8) by omega, show ¬ (16 + i - 8 < 8) by omega])

theorem statement_of_opcode (i : Instr) (h : i.opcode.extractLsb' 4 4 = (match i.engine with
    | .gf => 0#4
    | .pf => 1#4)) : Statement i :=
  have hf := fields_append i.countBits i.opcode
  ⟨hf.1, hf.2.1, hf.2.2, h⟩

theorem xtime : Statement .xtime := statement_of_opcode _ (by decide)
theorem genrcon (count : BitVec 8) : Statement (.genrcon count) := 
  statement_of_opcode _ (show (0x02#8).extractLsb' 4 4 = 0 by decide)
theorem rotword : Statement .rotword := statement_of_opcode _ (by decide)
theorem add : Statement .add := statement_of_opcode _ (by decide)
theorem sub : Statement .sub := statement_of_opcode _ (by decide)
theorem mul : Statement .mul := statement_of_opcode _ (by decide)
theorem mulinv : Statement .mulinv := statement_of_opcode _ (by decide)
theorem div : Statement .div := statement_of_opcode _ (by decide)
theorem isprime : Statement .isprime := statement_of_opcode _ (by decide)

end Sys2Proof.Laws.Fields
end

