-- ==== Sys2Proof/Laws/PrimeField.lean ====
section
/-! SUPPORT. What the extended-Euclidean iteration and the trial division compute. -/

namespace Sys2Proof.Machine

/-- The iteration's invariant (R140): with enough rounds left, the first component is the gcd of the two remainders, and
congruences `r0 = t0 a` and `r1 = t1 a` modulo `p` end in the same congruence for the result. -/
theorem euclid_spec (a p : Int) (n r0 r1 : Nat) (t0 t1 : Int) (hn : r1 < n)
    (h0 : p ∣ t0 * a - r0) (h1 : p ∣ t1 * a - r1) :
    (euclid n r0 r1 t0 t1).1 = Nat.gcd r1 r0 ∧
    p ∣ (euclid n r0 r1 t0 t1).2 * a - (Nat.gcd r1 r0 : Nat) := by
  induction n generalizing r0 r1 t0 t1 with
  | zero => omega
  | succ n ih =>
    by_cases hr : r1 = 0
    · subst hr; simpa [euclid] using h0
    · have hmod : r0 - r0 / r1 * r1 = r0 % r1 := by
        have := Nat.div_add_mod r0 r1
        rw [Nat.mul_comm] at this; omega
      have hlt : r0 % r1 < r1 := Nat.mod_lt _ (Nat.pos_of_ne_zero hr)
      have hcast : ((r0 % r1 : Nat) : Int) = r0 - (r0 / r1 : Nat) * r1 := by
        have := Nat.div_add_mod r0 r1
        have h : (r1 : Int) * (r0 / r1 : Nat) + (r0 % r1 : Nat) = r0 := by exact_mod_cast this
        linarith [Int.mul_comm (r1 : Int) (r0 / r1 : Nat)]
      have h2 : p ∣ (t0 - (r0 / r1 : Nat) * t1) * a - (r0 % r1 : Nat) := by
        have : (t0 - (r0 / r1 : Nat) * t1) * a - (r0 % r1 : Nat)
            = (t0 * a - r0) - (r0 / r1 : Nat) * (t1 * a - r1) := by rw [hcast]; ring
        rw [this]; exact dvd_sub h0 (Dvd.dvd.mul_left h1 _)
      have key := ih r1 (r0 % r1) t1 (t0 - (r0 / r1 : Nat) * t1) (by omega) h1 h2
      simp only [euclid, if_neg hr, hmod]
      rw [Nat.gcd_rec r1 r0]
      exact key

/-- The iteration of R140, started as the rule starts it, ends with the gcd and a coefficient of it. -/
theorem euclid_start (a p : Nat) (hp : 2 ≤ p) :
    (euclid p p (a % p) 0 1).1 = Nat.gcd (a % p) p ∧
    (p : Int) ∣ (euclid p p (a % p) 0 1).2 * a - (Nat.gcd (a % p) p : Nat) := by
  apply euclid_spec
  · exact Nat.mod_lt _ (by omega)
  · simp
  · rw [one_mul, Int.natCast_mod]; exact Int.dvd_self_sub_emod

/-- `anyDivides` is the bounded search for a divisor (R147). -/
theorem anyDivides_iff (p n i : Nat) : anyDivides p n i = true ↔ ∃ d, i ≤ d ∧ d < i + n ∧ p % d = 0 := by
  induction n generalizing i with
  | zero => simp [anyDivides]; omega
  | succ n ih =>
    by_cases h : p % i = 0
    · simp only [anyDivides, if_pos h, true_iff]; exact ⟨i, le_refl i, by omega, h⟩
    · simp only [anyDivides, if_neg h, ih]
      constructor
      · rintro ⟨d, h1, h2, h3⟩; exact ⟨d, by omega, by omega, h3⟩
      · rintro ⟨d, h1, h2, h3⟩
        have : d ≠ i := fun hd => h (hd ▸ h3)
        exact ⟨d, by omega, by omega, h3⟩

end Sys2Proof.Machine
end

