-- ==== Sys2Proof/Laws/Step.lean ====
section
/-! SUPPORT. What one step does to a state whose next event is listed, what a run of steps is, and the completion of each GF
command as an update of its bank. -/

namespace Sys2Proof.Machine

open Sys2Proof

variable {W : Nat}

/-! ### The machine of the fixed names and the machine of any width -/

/-- At the width of the instance the two completion functions are one. -/
theorem exec_eq_execAt : exec = execAt (W := 256) := rfl

/-- At the width of the instance the two steps are one. -/
theorem step_eq_stepAt : step = stepAt (W := 256) := rfl

/-- The machine of the host's interface is the machine of the width of the instance. -/
theorem core_eq_coreWith : core = coreWith step := rfl

/-- A rule that holds at every width that is allowed holds of the machine of the fixed names too. -/
theorem AtEveryWidth.of_execAt {rule : (W : Nat) → (Instr → State W → Result W) → (State W → Result W) → Prop}
    (h : ∀ W, Config.IsWidth W → rule W execAt stepAt) : AtEveryWidth rule :=
  ⟨h 256 (by decide), h⟩

/-! ### Steps and runs -/

/-- A step takes the first listed event and lets it happen. -/
theorem stepAt_cons {s : State W} {ev : Event} {evs : List Event} (h : s.events = ev :: evs) :
    stepAt s = happen execAt ev { s with events := evs } := by
  rw [stepAt, takeAndHappen, State.takeEvent_cons h]

/-- A run of `k + 1` steps whose first answers a next state goes on from there. -/
theorem run_of_next (M : Host.Core) (k : Nat) (s t : M.State) (h : M.step s = .next t) : M.run (k + 1) s = M.run k t := by
  simp only [Host.Core.run, h]

theorem run_succ {st : State W → Result W} (k : Nat) (s t : State W) (h : st s = .next t) :
    Host.Core.run (coreWith st) (k + 1) s = Host.Core.run (coreWith st) k t :=
  run_of_next (coreWith st) k s t h

/-- The turn of a host that stands at a line of its script. -/
theorem State.hostTurn_at {s : State W} {n : Nat} {h : HostPort} {op : HostOp} {rest : List HostOp}
    (hh : s.hosts[n]? = some h) (hs : h.script = op :: rest) :
    s.hostTurn n = (match op with
      | .access a => s.hostAccess n h a rest
      | .wait e => s.hostWait n h e rest) := by
  cases op <;> simp only [State.hostTurn, hh, hs]

/-- The completion of XTIME. -/
theorem execAt_xtime (s : State W) :
    execAt .xtime s = .next { s with gf := { s.gf with
      out := match octetOperand s.gf.input with
        | none => 0
        | some v => (xtime v).setWidth 32
      status := match octetOperand s.gf.input with
        | none => s.gf.status.raise .invalidInput
        | some _ => s.gf.status.complete } } := by
  show Host.Outcome.next (s.finish .gf (.gfOut 0#32) (xtimeResult s.gf.input)) = _
  unfold xtimeResult
  cases octetOperand s.gf.input <;> rfl

/-- The completion of ROTWORD. -/
theorem execAt_rotword (s : State W) :
    execAt .rotword s = .next { s with gf := { s.gf with out := rotword s.gf.input, status := s.gf.status.complete } } := rfl

/-- The completion of GENRCON. -/
theorem execAt_genrcon (count : BitVec 8) (s : State W) :
    execAt (.genrcon count) s = .next (if count.toNat < 1 then
        { s with gf := { s.gf with rclen := 0#8, rcbuf := [], status := s.gf.status.raise .invalidInput } }
      else { s with gf := { s.gf with
        rclen := count, rcbuf := Memory.ofBytes 1 (rconBytes count.toNat), status := s.gf.status.complete } }) := by
  show Host.Outcome.next (s.finish .gf (.gfRcon 0#8 []) (genrconResult count)) = _
  rw [State.finish_genrcon]

/-- An Octet operand is there exactly when bits 31:8 are zero. -/
theorem octetOperand_eq_none (w : Word) : octetOperand w = none ↔ w.extractLsb' 8 24 ≠ 0#24 := by
  unfold octetOperand; split <;> simp_all

theorem octetOperand_eq_some (w : Word) (h : w.extractLsb' 8 24 = 0#24) :
    octetOperand w = some (w.extractLsb' 0 8) := by
  unfold octetOperand; rw [if_pos h]

end Sys2Proof.Machine
end

