-- ==== Sys2Proof/Tests/Slice0.lean ====
section
/-! SUPPORT. The model's own tests, each about one step or one word, with results taken from spec/95_test_vectors.md or a worked
example of the rule named; and, for each statement that has hypotheses, a concrete state that meets them. -/

namespace Sys2Proof.Machine.Tests

open Sys2Proof Sys2Proof.Machine

/-! ### Small states -/

/-- The next state of an outcome. -/
def stateOf {W : Nat} : Result W → Option (State W)
  | .next t => some t
  | .fault _ => none
  | .refused _ => none

/-- Reset, then `GF_IN` written. -/
def gfWith (input : Word) : State := { State.reset with gf := { GfBank.reset with input := input } }

/-- Reset at width `W`, then the three PF operands written. -/
def pfAt (W a b p : Nat) : State W :=
  { State.resetAt W with pf := { PfBank.reset with a := pfWord a, b := pfWord b, p := pfWord p } }

/-- The same at the width of the instance. -/
def pfWith (a b p : Nat) : State := pfAt 256 a b p

/-- What a command word leaves in `GF_OUT` and `GF_STATUS`. -/
def gfOutAfter (s : State) (w : Nat) : Option (Word × Word) :=
  (stateOf (step (s.withFetchWord 32 w))).map (fun t => (t.gf.out, t.gf.status.word))

/-- What a command word leaves in `PF_R` and `PF_STATUS`. -/
def pfAfter (s : State) (w : Nat) : Option (Nat × Word) :=
  (stateOf (step (s.withFetchWord 32 w))).map (fun t => (t.pf.r.toNat, t.pf.status.word))

/-- One host at one line, and its turn. -/
def hostAt (s : State) (op : HostOp) : State := { s with hosts := [⟨[op], []⟩], events := [.turn (.host 0)] }

/-- The reply the host of `hostAt` gets, none while its access is held. -/
def replyTo (s : State) (op : HostOp) : Option (List Reply) :=
  (stateOf (step (hostAt s op))).map (fun t => t.hosts.flatMap HostPort.replies)

/-- A state in which an engine is running a command word, in its turn. -/
def running (s : State) (e : Engine) (c : Word) : State := { s.start e c with events := [.turn (.engine e)] }

/-! ### WellFormed: a term each check refuses -/

theorem test_wf_accepts_gf : WellFormed .gf (.genrcon 0) ∧ WellFormed .gf .xtime ∧ WellFormed .gf .rotword := by decide

theorem test_wf_accepts_pf : WellFormed .pf .add ∧ WellFormed .pf .isprime := by decide

theorem test_wf_refuses_gf_command_on_pf : ¬ WellFormed .pf .xtime := by decide

theorem test_wf_refuses_pf_command_on_gf : ¬ WellFormed .gf .add := by decide

/-! ### Decoding: words written bit by bit from the fields of R80 (ZERO, CNT, OPC) and the codes of R84 -/

theorem test_decode_xtime : decode .gf 0b0000000000000000_00000000_00000001#32 = .ok .xtime := by decide
theorem test_decode_genrcon : decode .gf 0b0000000000000000_00001010_00000010#32 = .ok (.genrcon 10) := by decide
theorem test_decode_genrcon_top : decode .gf 0b0000000000000000_11111111_00000010#32 = .ok (.genrcon 255) := by decide
theorem test_decode_rotword : decode .gf 0b0000000000000000_00000000_00000011#32 = .ok .rotword := by decide
theorem test_decode_add : decode .pf 0b0000000000000000_00000000_00010000#32 = .ok .add := by decide
theorem test_decode_sub : decode .pf 0b0000000000000000_00000000_00010001#32 = .ok .sub := by decide
theorem test_decode_mul : decode .pf 0b0000000000000000_00000000_00010010#32 = .ok .mul := by decide
theorem test_decode_mulinv : decode .pf 0b0000000000000000_00000000_00010011#32 = .ok .mulinv := by decide
theorem test_decode_div : decode .pf 0b0000000000000000_00000000_00010100#32 = .ok .div := by decide
theorem test_decode_isprime : decode .pf 0b0000000000000000_00000000_00010101#32 = .ok .isprime := by decide

/-- V-ENC: the illegal words of `GF_CMD`. -/
theorem test_decode_illegal_gf :
    ([0x00000000#32, 0x00000004#32, 0x000000FF#32, 0x00000101#32, 0x00000103#32, 0x00010002#32, 0x80000A02#32,
      0x00000010#32].map (fun c => (decode .gf c).isOk)).all (· = false) = true := by decide

/-- V-ENC: the illegal words of `PF_CMD`. -/
theorem test_decode_illegal_pf :
    ([0x00000000#32, 0x00000016#32, 0x0000000F#32, 0x00000110#32, 0x00010010#32, 0x00000002#32].map
      (fun c => (decode .pf c).isOk)).all (· = false) = true := by decide

theorem test_decodeTableWord : decodeTableWord 32 0x0A02 = some (.genrcon 10) ∧ decodeTableWord 32 0x14 = some .div ∧
    decodeTableWord 32 0x16 = none := by decide

/-! ### One step per command -/

/-- V-XT: 0xC6 reduces. -/
theorem test_xtime : gfOutAfter (gfWith 0x000000C6#32) 0x01 = some (0x00000097#32, 0x00000002#32) := by decide
/-- V-XT: not an Octet. -/
theorem test_xtime_invalid : gfOutAfter (gfWith 0x00000100#32) 0x01 = some (0x00000000#32, 0x00000016#32) := by decide

set_option maxRecDepth 20000 in
/-- V-RC: count 51, the word with elements 48 to 51, and the cleared word after it. -/
theorem test_genrcon :
    (stateOf (step (State.reset.withFetchWord 32 0x3302))).map
      (fun t => (t.readLoc .gfRclen, t.readLoc (.gfRcbuf 12), t.readLoc (.gfRcbuf 13), t.gf.status.word)) =
    some (0x00000033#32, 0x8DCBE874#32, 0x00000000#32, 0x00000002#32) := by decide

/-- V-RC: count 0 after a count of 10 clears the buffer. -/
theorem test_genrcon_zero :
    (stateOf (step (State.withFetchWord { State.reset with gf := { GfBank.reset with
      rclen := 2#8, rcbuf := [(1, 0x01#8), (2, 0x02#8)] } } 32 0x02))).map
      (fun t => (t.readLoc .gfRclen, t.readLoc (.gfRcbuf 0), t.gf.status.word)) =
    some (0x00000000#32, 0x00000000#32, 0x00000016#32) := by decide

/-- V-RW. -/
theorem test_rotword : gfOutAfter (gfWith 0xAABBCCDD#32) 0x03 = some (0xBBCCDDAA#32, 0x00000002#32) := by decide
theorem test_rotword_wraps : gfOutAfter (gfWith 0x80000000#32) 0x03 = some (0x00000080#32, 0x00000002#32) := by decide

/-- V-ADD: the sum needs 257 bits. -/
theorem test_add_wide : pfAfter (pfWith (2 ^ 256 - 1) (2 ^ 256 - 2) (2 ^ 256 - 3)) 0x10 = some (3, 0x00000002#32) := by decide
theorem test_add_domain : pfAfter (pfWith 5 10 1) 0x10 = some (0, 0x00000046#32) := by decide
/-- V-SUB: `b > a + p`. -/
theorem test_sub_unreduced : pfAfter (pfWith 3 30 13) 0x11 = some (12, 0x00000002#32) := by decide
theorem test_sub_zero_minus_top : pfAfter (pfWith 0 (2 ^ 256 - 1) 13) 0x11 = some (11, 0x00000002#32) := by decide
/-- V-MUL: the product needs 512 bits. -/
theorem test_mul_wide : pfAfter (pfWith (2 ^ 256 - 1) (2 ^ 256 - 2) (2 ^ 256 - 3)) 0x12 = some (2, 0x00000002#32) := by decide
theorem test_mul_unreduced : pfAfter (pfWith 100 200 13) 0x12 = some (6, 0x00000002#32) := by decide
/-- V-INV: the widest operands, and a composite modulus where there is no inverse. -/
theorem test_mulinv_wide :
    pfAfter (pfWith (2 ^ 256 - 1) 0 (2 ^ 256 - 3)) 0x13 = some (2 ^ 255 - 1, 0x00000002#32) := by decide
theorem test_mulinv_none : pfAfter (pfWith 6 0 9) 0x13 = some (0, 0x00000036#32) := by decide
/-- V-DIV: division by `b = 2p`, and a quotient with an unreduced `a`. -/
theorem test_div : pfAfter (pfWith 100 7 13) 0x14 = some (5, 0x00000002#32) := by decide
theorem test_div_by_zero : pfAfter (pfWith 7 22 11) 0x14 = some (0, 0x00000026#32) := by decide
/-- V-PR. -/
theorem test_isprime : pfAfter (pfWith 0 0 97) 0x15 = some (1, 0x00000002#32) := by decide
theorem test_isprime_not : pfAfter (pfWith 0 0 1) 0x15 = some (0, 0x00000002#32) := by decide

/-- V-ENC: `IllegalCommand` wins over every operand error and leaves `PF_R`. -/
theorem test_illegal :
    (stateOf (step (running { State.reset with pf := { PfBank.reset with r := 7#256 } } .pf 0x00000016#32))).map
      (fun t => (t.pf.r, t.pf.cmd, t.pf.status.word)) = some (7#256, 0x00000016#32, 0x00000056#32) := by decide

/-- V-DIV: `InvalidInverse`, composite modulus. -/
theorem test_div_no_inverse : (divResult 6 2 4, divResult 10 9 9, divResult 7 0 1) =
    (.error .invalidInverse, .error .divisionByZero, .error .domainError) := by decide

/-! ### The bus (V-BUS, V-HOLD, V-RST, P4) -/

theorem test_bus_reads : replyTo (gfWith 0xDEADBEEF#32) (.access (.read 32 0x008#12)) = some [.value 0xDEADBEEF#32] := by decide

/-- R51, R54: each PF operand is read at its own window. -/
theorem test_bus_reads_operands :
    [0x400#12, 0x600#12, 0x800#12].map (fun off => replyTo (pfWith 5 10 13) (.access (.read 32 off))) =
      [some [.value 5#32], some [.value 10#32], some [.value 13#32]] := by decide

theorem test_bus_unmapped :
    [0x014#12, 0x0FC#12, 0x208#12, 0x3FC#12, 0x420#12, 0x5FC#12, 0xA20#12, 0xC00#12, 0xFFC#12].map (locate 256) =
      List.replicate 9 none := by decide

theorem test_bus_refuses_width_and_alignment :
    [Access.read 8 0x008#12, .read 64 0x008#12, .read 32 0x002#12, .write 32 0x401#12 1#32].map (Access.target 256) =
      List.replicate 4 none := by decide

theorem test_bus_refuses_writes_to_read_only :
    [0x004#12, 0x00C#12, 0x010#12, 0x100#12, 0x204#12, 0xA00#12].map (fun off => (Access.write 32 off 1#32).target 256) =
      List.replicate 6 none := by decide

/-- V-BUS: limb 1 of `PF_A` is worth `2^32`. -/
theorem test_bus_limb :
    (stateOf (step (hostAt State.reset (.access (.write 32 0x404#12 1#32))))).map (fun t => t.pf.a.toNat) =
      some (2 ^ 32) := by decide

/-- R51 at the least and the greatest width: a register of 32 bits has one limb; one of 4096 bits fills its window, and the last word
of `PF_R` is at 0xBFC. -/
theorem test_bus_widths :
    [0x400#12, 0x404#12, 0xA00#12, 0xA04#12].map (locate 32) = [some (.pfLimb .a 0), none, some (.pfLimb .r 0), none] ∧
    [0x5FC#12, 0x600#12, 0xBFC#12, 0xC00#12].map (locate 4096) =
      [some (.pfLimb .a 127), some (.pfLimb .b 0), some (.pfLimb .r 127), none] := by decide

/-- R133 at `W = 32`: `a = 2^W - 1`, `b = 2^W - 2`, `p = 2^W - 3` gives 3, the sum needing 33 bits; R137: the product gives 2. -/
theorem test_add_mul_at_32 :
    (stateOf (execAt .add (pfAt 32 (2 ^ 32 - 1) (2 ^ 32 - 2) (2 ^ 32 - 3)))).map (fun t => t.pf.r.toNat) = some 3 ∧
    (stateOf (execAt .mul (pfAt 32 (2 ^ 32 - 1) (2 ^ 32 - 2) (2 ^ 32 - 3)))).map (fun t => t.pf.r.toNat) = some 2 := by
  decide

/-- R212, log 11: with no event listed, the block taken ends with the turn it owes, the GF engine's and the PF engine's by turns. -/
theorem test_blocks_owe_turns :
    State.reset.takeEvent.1 :: State.reset.takeEvent.2.events = Config.between 0 ++ [.turn (.engine .gf)] ∧
    Config.due 1 = .pf := by
  obtain ⟨ev, evs, h, hb⟩ := State.takeEvent_nil (s := State.reset) rfl
  exact ⟨by rw [h]; exact hb, rfl⟩

/-- V-HOLD: the held read has no effect; a status read is answered; the other bank is open. -/
theorem test_hold :
    replyTo ((pfWith 5 10 13).start .pf 0x10#32) (.access (.read 32 0xA00#12)) = some [] ∧
    replyTo ((pfWith 5 10 13).start .pf 0x10#32) (.access (.read 32 0x204#12)) = some [.value 0x00000001#32] ∧
    replyTo ((pfWith 5 10 13).start .pf 0x10#32) (.access (.write 32 0x008#12 0x80#32)) = some [.written] := by decide

/-- V-RST: a running command and its operands are gone. -/
theorem test_reset :
    (stateOf (step { (pfWith 5 10 13).start .pf 0x15#32 with events := [.reset] })).map (fun t => (t.gf, t.pf)) =
      some (GfBank.reset, PfBank.reset) := by decide

/-- R90: `WRW PF_P, n` writes limb 0 first; `CALL ADD` is 24 writes, the command, the wait, the status and 8 reads. -/
theorem test_script :
    (scriptWrw .p (13#256)).take 2 = [.access (.write 32 0x800#12 0x0000000D#32), .access (.write 32 0x804#12 0#32)] ∧
    (scriptCall3 .add 5#256 10#256 13#256).length = 35 ∧
    scriptCallGf .rotword 0x01020304#32 =
      [.access (.write 32 0x008#12 0x01020304#32), .access (.write 32 0x000#12 0x00000003#32), .wait .gf,
       .access (.read 32 0x004#12), .access (.read 32 0x00C#12)] := by decide

theorem test_reset_buffer_wf : Memory.wf State.reset.gf.rcbuf = true := by decide

/-! ### Witnesses: every hypothesis of every statement is met by a concrete state, clause by clause -/

/-- Every statement made at every width: the least width, the one of the instance and the greatest are widths of R6; 0, a width that
is no multiple of 32, and the next one above are not. The last limb of each is a limb. -/
theorem test_hyp_width : Config.IsWidth 32 ∧ Config.IsWidth 256 ∧ Config.IsWidth 4096 ∧
    ¬ Config.IsWidth 0 ∧ ¬ Config.IsWidth 40 ∧ ¬ Config.IsWidth 4128 ∧
    0 < Config.NL 32 ∧ 7 < Config.NL 256 ∧ 127 < Config.NL 4096 ∧ (Loc.pfLimb .r 127).exists 4096 = true := by decide

/-- The bus statements (O7 to O11, O15): a host at any line of its script, on its turn. -/
theorem test_hyp_host_line (s : State) (op : HostOp) : (hostAt s op).AtHostLine 0 op ⟨[op], []⟩ [] [] := ⟨rfl, rfl, rfl⟩

/-- The statements about an engine's turn (O5, O26, O38, O45, O54): a busy engine, its turn next. The second half of O54 needs the
busy engine alone. -/
theorem test_hyp_running (s : State) (e : Engine) (c : Word) :
    (running s e c).events = .turn (.engine e) :: [] ∧ ((running s e c).status e).busy = true ∧ (running s e c).cmd e = c := by
  cases e <;> exact ⟨rfl, rfl, rfl⟩

/-- OpcodeTableDecides: a row covers a word, and a word is decoded. -/
theorem test_hyp_OpcodeTableDecides :
    (∃ r ∈ opcodeTable, r.covers .gf 0x0000FF02#32 = true) ∧ decode .pf 0x00000015#32 = .ok .isprime := by decide

/-- IllegalWordsCompleteWithIllegalCommand: a running engine whose word is illegal. -/
theorem test_hyp_IllegalWords : decode .gf ((running State.reset .gf 0x00010002#32).cmd .gf) = .error .zeroField := by decide

/-- RefusedAccessGetsBusError, ReadIsRefusedHeldOrPerformed and WriteIsRefusedHeldOrPerformed: the refusals at their boundaries
(0x020 past `GF_RCLEN`, 0x420 past `PF_A`, 0xFFC the last word), for a read and for a write. -/
theorem test_hyp_refused :
    (Access.read 8 0x000#12).target 256 = none ∧ (Access.read 32 0xFFF#12).target 256 = none ∧
    (Access.read 32 0x014#12).target 256 = none ∧ (Access.read 32 0x420#12).target 256 = none ∧
    (Access.read 32 0xFFC#12).target 256 = none ∧ (Access.write 64 0x000#12 0#32).target 256 = none ∧
    (Access.write 32 0x009#12 0#32).target 256 = none ∧ (Access.write 32 0x0FC#12 0#32).target 256 = none ∧
    (Access.write 32 0x1FC#12 0#32).target 256 = none ∧ (Access.write 32 0xA1C#12 0#32).target 256 = none := by decide

/-- ReadIsRefusedHeldOrPerformed and WriteIsRefusedHeldOrPerformed: no location but 0x00C stands at 0x00C, which is read-only; the
same two facts for the unmapped 0x014. -/
theorem test_hyp_refused_by_offset :
    (∀ l : Loc, l.exists 256 = true → (0x014#12).toNat ≠ l.offset) ∧
    (∀ l : Loc, l.exists 256 = true → l.writable = true → (0x00C#12).toNat ≠ l.offset) := by
  constructor
  · intro l h ho
    have hb := locate_of_offset (by decide) h ho
    rw [show locate 256 0x014#12 = none by decide] at hb
    cases hb
  · intro l h hw ho
    have hb := locate_of_offset (by decide) h ho
    have : l = .gfOut := Option.some.inj (hb.symm.trans (by decide))
    subst this
    exact absurd hw (by decide)

/-- ReadIsRefusedHeldOrPerformed: a location that exists, of a busy bank (held), of an idle bank, and a status register. -/
theorem test_hyp_Read :
    Loc.exists 256 (.pfLimb .r 7) = true ∧ (0xA1C#12).toNat = Loc.offset (.pfLimb .r 7) ∧
    ((hostAt ((pfWith 5 10 13).start .pf 0x10#32) (.access (.read 32 0xA1C#12))).status .pf).busy = true ∧
    Loc.pfLimb .r 7 ≠ statusLoc (Loc.bank (.pfLimb .r 7)) ∧
    ((hostAt State.reset (.access (.read 32 0xA1C#12))).status .pf).busy = false ∧
    Loc.pfStatus = statusLoc (Loc.bank .pfStatus) := by decide

/-- WriteIsRefusedHeldOrPerformed, OperandWriteReplacesRegisterOrLimb and CommandWriteStartsACommand: writable locations of each
kind, at the ends of their ranges, of a busy and of an idle bank. -/
theorem test_hyp_Write :
    (∀ l ∈ [Loc.gfIn, .gfCmd, .pfCmd, .pfLimb .a 0, .pfLimb .b 7, .pfLimb .p 7],
      l.exists 256 = true ∧ l.writable = true ∧ l.bits.toNat = l.offset ∧
      ((hostAt State.reset (.access (.write 32 l.bits 1#32))).status l.bank).busy = false ∧
      ((hostAt (State.reset.start l.bank 1#32) (.access (.write 32 l.bits 1#32))).status l.bank).busy = true) ∧
    Loc.gfCmd = cmdLoc .gf ∧ Loc.pfCmd = cmdLoc .pf ∧ PfReg.p ≠ .r ∧
    (0x400#12).toNat = 0x400 + 4 * 0 ∧ (0x61C#12).toNat = 0x600 + 4 * 7 ∧ (0x81C#12).toNat = 0x800 + 4 * 7 := by decide

/-- XtimeDoublesTheOctet: the last Octet and the first value that is none. -/
theorem test_hyp_Xtime : (gfWith 0x000000FF#32).gf.input.toNat < 256 ∧ 256 ≤ (gfWith 0x00000100#32).gf.input.toNat := by decide

/-- RconIsThePowerOfX and RconHasPeriodFiftyOne: positions from 1, shifts from 1 to 50. -/
theorem test_hyp_Rcon : (1 : Nat) ≤ 1 ∧ 1 ≤ 50 ∧ 50 < 51 := by decide

/-- GenrconFillsTheBuffer: the least and the greatest count that is no error. -/
theorem test_hyp_GenrconFills : 1 ≤ (1#8).toNat ∧ 1 ≤ (255#8).toNat := by decide

/-- GenrconStartsFromTheSeed: two completions, the first count 1, the least that is no error, and not above the second. -/
theorem test_hyp_GenrconStarts :
    1#8 ≤ 10#8 ∧ (∃ t, exec (.genrcon 1) State.reset = .next t) ∧ ∃ t, exec (.genrcon 10) (gfWith 5#32) = .next t :=
  ⟨by decide, ⟨_, rfl⟩, ⟨_, rfl⟩⟩

/-- GfOutcomesAreTheTable: each row of the table. -/
theorem test_hyp_GfOutcomes :
    (running (gfWith 0x100#32) .gf 1#32).gf.cmd = 0x00000001#32 ∧
    (running (gfWith 0x100#32) .gf 1#32).gf.input.extractLsb' 8 24 ≠ 0#24 ∧
    (running (gfWith 0xFF#32) .gf 1#32).gf.input.extractLsb' 8 24 = 0#24 ∧
    (running State.reset .gf 0x0000FF02#32).gf.cmd &&& 0xFFFF00FF#32 = 0x00000002#32 ∧
    (running State.reset .gf 0x00000002#32).gf.cmd = 0x00000002#32 ∧
    (running State.reset .gf 3#32).gf.cmd = 0x00000003#32 ∧ (running State.reset .gf 0#32).gf.cmd = 0#32 := by decide

/-- SmallModulusIsADomainError and the first clauses of ADD, SUB, MUL, MULINV and DIV: the moduli 0 and 1, and the least above. -/
theorem test_hyp_modulus : (pfWith 5 10 0).pf.p.toNat ≤ 1 ∧ (pfWith 5 10 1).pf.p.toNat ≤ 1 ∧ 2 ≤ (pfWith 5 10 2).pf.p.toNat := by
  decide

/-- SmallModulusIsADomainError and ResultsAreBelowTheModulus: a PF command completes with a modulus of 2. -/
theorem test_hyp_pf_completes : Instr.engine .add = .pf ∧ 2 ≤ (pfWith 1 1 2).pf.p.toNat ∧ ∃ t, exec .add (pfWith 1 1 2) = .next t :=
  ⟨rfl, by decide, ⟨_, rfl⟩⟩

/-- SubGivesTheLeastResidue, the third clause at the last `b` it speaks of, `b = a + p`. -/
theorem test_hyp_Sub : 2 ≤ (pfWith 3 16 13).pf.p.toNat ∧
    (pfWith 3 16 13).pf.b.toNat ≤ (pfWith 3 16 13).pf.a.toNat + (pfWith 3 16 13).pf.p.toNat := by decide

/-- MulinvGivesTheInverse, EuclidEndsWithTheGcd, ModularFunctionsHaveTheListedProperties: no inverse, an inverse, and `a` congruent to 0. -/
theorem test_hyp_Mulinv :
    2 ≤ (pfWith 2 0 4).pf.p.toNat ∧ Nat.gcd ((pfWith 2 0 4).pf.a.toNat % (pfWith 2 0 4).pf.p.toNat) (pfWith 2 0 4).pf.p.toNat ≠ 1 ∧
    Nat.gcd ((pfWith 3 0 4).pf.a.toNat % (pfWith 3 0 4).pf.p.toNat) (pfWith 3 0 4).pf.p.toNat = 1 ∧ 26 % 13 = 0 := by decide

/-- FermatAgreesForPrimeModuli: a prime modulus and an operand not congruent to 0, the least of both. -/
theorem test_hyp_Fermat : Nat.Prime 2 ∧ 3 % 2 ≠ 0 ∧ Nat.Prime 11 ∧ 3 % 11 ≠ 0 := by norm_num

/-- DivGivesTheFieldQuotient and the second half of DivIsMulinvThenMul: `b` congruent to 0, `b` without an inverse, `b` with one. -/
theorem test_hyp_Div :
    (pfWith 7 22 11).pf.b.toNat % (pfWith 7 22 11).pf.p.toNat = 0 ∧
    (pfWith 6 2 4).pf.b.toNat % (pfWith 6 2 4).pf.p.toNat ≠ 0 ∧
    Nat.gcd ((pfWith 6 2 4).pf.b.toNat % (pfWith 6 2 4).pf.p.toNat) (pfWith 6 2 4).pf.p.toNat ≠ 1 ∧
    Nat.gcd ((pfWith 6 3 4).pf.b.toNat % (pfWith 6 3 4).pf.p.toNat) (pfWith 6 3 4).pf.p.toNat = 1 ∧
    2 ≤ (pfWith 6 3 4).pf.p.toNat := by decide

/-- DivIsMulinvThenMul: a DIV that completes without error, and the completions its second half starts from. -/
theorem test_hyp_DivIsMulinvThenMul :
    (stateOf (exec .div (pfWith 7 3 11))).map (fun t => t.pf.status.word) = some 0x00000002#32 ∧
    (∃ t, exec .div (pfWith 7 22 11) = .next t) ∧ ∃ t, exec .mulinv (pfWith 22 22 11) = .next t :=
  ⟨by decide, ⟨_, rfl⟩, ⟨_, rfl⟩⟩

/-- IsprimeTellsPrimes: a prime and a number that is none. -/
theorem test_hyp_Isprime : Nat.Prime (pfWith 0 0 17).pf.p.toNat ∧ ¬ Nat.Prime (pfWith 0 0 221).pf.p.toNat := by
  have h1 : (pfWith 0 0 17).pf.p.toNat = 17 := by decide
  have h2 : (pfWith 0 0 221).pf.p.toNat = 221 := by decide
  rw [h1, h2]; norm_num

/-- PfOutcomesAreTheTable: the words at both ends of the legal range and the ones beside it. -/
theorem test_hyp_PfOutcomes :
    (running State.reset .pf 0x0F#32).pf.cmd < 0x00000010#32 ∧ 0x00000015#32 < (running State.reset .pf 0x16#32).pf.cmd ∧
    ¬ (0x10#32 < 0x00000010#32 ∨ 0x00000015#32 < (0x10#32 : Word)) ∧
    ¬ (0x15#32 < 0x00000010#32 ∨ 0x00000015#32 < (0x15#32 : Word)) := by decide

/-- ErrorsZeroTheOutputs: a completion with an error on each engine (for its first half, `test_hyp_running`). -/
theorem test_hyp_Errors :
    (stateOf (exec .xtime (gfWith 256#32))).map (fun t => (t.status .gf).err) = some true ∧
    (stateOf (exec (.genrcon 0) State.reset)).map (fun t => (t.status .gf).err) = some true ∧
    (stateOf (exec .mulinv (pfWith 0 0 2))).map (fun t => (t.status .pf).err) = some true := by decide

/-- GfCommandsLeaveTheRest, PfCommandsLeaveTheRest: completions of each engine. -/
theorem test_hyp_frames : Instr.engine (.genrcon 3) = .gf ∧ (∃ t, exec (.genrcon 3) State.reset = .next t) ∧
    Instr.engine .isprime = .pf ∧ ∃ t, exec .isprime (pfWith 1 2 3) = .next t := ⟨rfl, ⟨_, rfl⟩, rfl, ⟨_, rfl⟩⟩

/-- OutcomeDependsOnReadOperandsOnly: two different states that agree on what MULINV, and what XTIME, reads. -/
theorem test_hyp_Outcome :
    pfWith 3 1 11 ≠ pfWith 3 2 11 ∧ (pfWith 3 1 11).pf.a = (pfWith 3 2 11).pf.a ∧ (pfWith 3 1 11).pf.p = (pfWith 3 2 11).pf.p ∧
    gfWith 9#32 ≠ { pfWith 1 2 3 with gf := (gfWith 9#32).gf } := by decide

/-- StepRunsTheDecodedCommand: a busy engine whose word is a command. -/
theorem test_hyp_StepRuns : decode .pf ((running (pfWith 5 10 13) .pf 0x10#32).cmd .pf) = .ok .add := by decide

/-- ResetLeavesEveryRegisterZero, ResetAbandonsCommandsAndLiftsHolds: a reset while a command runs and a host's read of it is held. -/
theorem test_hyp_Reset :
    ∃ s : State, s.events = .reset :: .turn (.host 0) :: [] ∧ (s.status .pf).busy = true ∧
      s.hosts[0]? = some ⟨[.access (.read 32 (Loc.pfLimb .r 0).bits)], []⟩ ∧ Loc.exists 256 (.pfLimb .r 0) = true :=
  ⟨{ (pfWith 5 10 13).start .pf 0x15#32 with
      events := [.reset, .turn (.host 0)], hosts := [⟨[.access (.read 32 (Loc.pfLimb .r 0).bits)], []⟩] }, rfl, rfl, rfl, rfl⟩

/-- EveryStepKeepsTheInvariant, StatusReadsOneOfEightValues: the invariant holds of a state that is not reset, in which an engine
runs, and its step answers a next state. -/
theorem test_hyp_Inv : (running (pfWith 5 10 13) .pf 0x10#32).Inv ∧ ∃ t, step (running (pfWith 5 10 13) .pf 0x10#32) = .next t := by
  refine ⟨⟨?_, ?_, rfl, ?_⟩, ⟨_, rfl⟩⟩
  · show Status.legal Status.reset
    unfold Status.legal; decide
  · show Status.legal (Status.start Status.reset)
    unfold Status.legal; decide
  · intro j h1 h2
    have : ¬ j ≤ (running (pfWith 5 10 13) .pf 0x10#32).gf.rclen.toNat := by
      have : (running (pfWith 5 10 13) .pf 0x10#32).gf.rclen.toNat = 0 := by decide
      omega
    rw [if_neg this]
    show Memory.read [] j = 0
    simp [Memory.read, Memory.lookup]

/-- RegistersHaveTheirWriters: a step that changes an operand, one that changes an output, and both a status. -/
theorem test_hyp_Writers :
    (stateOf (step (hostAt State.reset (.access (.write 32 0x400#12 5#32))))).map (fun t => t.pf.a ≠ State.reset.pf.a) = some True ∧
    (stateOf (step (running (pfWith 5 10 13) .pf 0x10#32))).map (fun t => t.pf.r.toNat) = some 2 ∧
    (stateOf (step (hostAt State.reset (.access (.write 32 0x000#12 3#32))))).map (fun t => (t.status .gf).busy) = some true := by
  refine ⟨?_, by decide, by decide⟩
  show some _ = some True
  exact congrArg some (eq_true (by decide))

/-- ErrorsStandUntilTheNextCommand: an idle engine with an error whose status a step changes, by a command write and by reset. -/
theorem test_hyp_Stand :
    ∃ s t : State, (s.status .gf).busy = false ∧ (s.status .gf).err = true ∧ step s = .next t ∧ t.status .gf ≠ s.status .gf :=
  ⟨hostAt { State.reset with gf := { GfBank.reset with status := ⟨false, true, true, 1#3⟩ } } (.access (.write 32 0x000#12 3#32)),
   _, rfl, rfl, rfl, by decide⟩

theorem test_hyp_Stand_reset :
    ∃ s t : State, (s.status .gf).busy = false ∧ step s = .next t ∧ t.status .gf ≠ s.status .gf ∧ s.takeEvent.1 = .reset :=
  ⟨{ State.reset with gf := { GfBank.reset with status := ⟨false, true, true, 1#3⟩ }, events := [.reset] },
   _, rfl, rfl, by decide, rfl⟩

/-- BusyBankStandsStill: a busy engine and a host's write to its bank, on the host's turn. -/
theorem test_hyp_Still :
    ∃ s t : State, (s.status .pf).busy = true ∧ step s = .next t ∧ s.takeEvent.1 ≠ .reset ∧ s.takeEvent.1 ≠ .turn (.engine .pf) :=
  ⟨hostAt ((pfWith 5 10 13).start .pf 0x10#32) (.access (.write 32 0x400#12 99#32)), _, rfl, rfl, by decide, by decide⟩

/-- CommandsLookAtomic: a running command, a host's turn and the other engine's turn before its own. -/
theorem test_hyp_Atomic :
    ∃ s : State, (s.status .pf).busy = true ∧
      s.events = [.turn (.host 0), .turn (.engine .gf)] ++ .turn (.engine .pf) :: [] ∧
      ∀ ev ∈ [Event.turn (.host 0), .turn (.engine .gf)], ev ≠ .reset ∧ ev ≠ .turn (.engine .pf) :=
  ⟨{ (pfWith 5 10 13).start .pf 0x10#32 with
      events := [.turn (.host 0), .turn (.engine .gf), .turn (.engine .pf)],
      hosts := [⟨[.access (.write 32 0x400#12 99#32)], []⟩] }, rfl, rfl, by decide⟩

/-- HeldReadReturnsTheResult: a read of limb 7 that is held twice. -/
theorem test_hyp_Held :
    ∃ s : State, s.pf.status.busy = true ∧
      s.events = List.replicate 2 (.turn (.host 0)) ++ .turn (.engine .pf) :: .turn (.host 0) :: [] ∧
      s.hosts[0]? = some ⟨[.access (.read 32 (Loc.pfLimb .r 7).bits)], []⟩ ∧ 7 < 8 :=
  ⟨{ (pfWith 5 10 13).start .pf 0x10#32 with
      events := [.turn (.host 0), .turn (.host 0), .turn (.engine .pf), .turn (.host 0)],
      hosts := [⟨[.access (.read 32 (Loc.pfLimb .r 7).bits)], []⟩] }, rfl, rfl, rfl, by decide⟩

/-- EnginesShareNoState: turns of both engines, on two states that agree on the turning engine's bank only. -/
theorem test_hyp_Share :
    (∃ t, engineTurn exec .gf (running (gfWith 5#32) .gf 1#32) = .next t) ∧
    (∃ t, engineTurn exec .pf (running (pfWith 5 10 13) .pf 0x10#32) = .next t) ∧
    (∃ t, engineTurn exec .gf { running (pfWith 1 2 3) .gf 1#32 with gf := (running (gfWith 5#32) .gf 1#32).gf } = .next t) :=
  ⟨⟨_, rfl⟩, ⟨_, rfl⟩, ⟨_, rfl⟩⟩

/-- EndedRunStandsStill: a host that has done everything, idle engines, and a turn of each. -/
theorem test_hyp_Ended :
    ∃ s t : State, s.ended ∧ step s = .next t ∧ s.takeEvent.1 ≠ .reset :=
  ⟨{ pfWith 5 10 13 with hosts := [⟨[], [.written]⟩], events := [.turn (.host 0), .turn (.engine .pf)] }, _,
   ⟨by decide, rfl, rfl⟩, rfl, by decide⟩

end Sys2Proof.Machine.Tests
end

section
/-! PROOFS of the family `10_state.md`: command start (R35) and reset (R39, R200), with the rules they rest on: the step at a line
of a host's script, and a write that is performed. -/

namespace Sys2Proof.Machine

open Sys2Proof

variable {W : Nat} {s : State W} {n : Nat} {h : HostPort} {rest : List HostOp} {evs : List Event}

/-! ### A performed write -/

/-- At an access of a host's script, the step is that access (R34). -/
theorem stepAt_access {a : Access} (hline : s.AtHostLine n (.access a) h rest evs) :
    stepAt s = .next (State.hostAccess { s with events := evs } n h a rest) := by
  obtain ⟨hev, hhost, hscript⟩ := hline
  calc stepAt s = .next (State.hostTurn { s with events := evs } n) := stepAt_cons hev
    _ = _ := congrArg Host.Outcome.next (State.hostTurn_at (s := { s with events := evs }) hhost hscript)

/-- A 32-bit write at the offset of a writable location is made at that location. -/
theorem Access.target_write {off : BitVec 12} {l : Loc} {v : Word} (hW : W ≤ 4096) (hl : l.exists W = true)
    (hw : l.writable = true) (ho : off.toNat = l.offset) : (Access.write 32 off v).target W = some l := by
  simp [Access.target, (locateAligned_iff hW).2 ⟨rfl, hl, ho⟩, hw]

/-- Nothing of an idle bank is held (R37). -/
theorem State.held_of_idle {l : Loc} (hb : (s.status l.bank).busy = false) : s.held l = false := by
  simp [State.held, hb]

/-- R57 (3): a write to a writable location of an idle bank is performed at once. -/
theorem State.hostAccess_write {off : BitVec 12} {l : Loc} {v : Word} (hW : W ≤ 4096) (hl : l.exists W = true)
    (hw : l.writable = true) (ho : off.toNat = l.offset) (hb : (s.status l.bank).busy = false) :
    s.hostAccess n h (.write 32 off v) rest = (s.writeLoc l v).answer n h .written rest := by
  simp [State.hostAccess, Access.target_write hW hl hw ho, State.held_of_idle hb, State.perform]

/-! ### Command start -/

theorem State.start_gf (s : State W) (c : Word) :
    s.start .gf c = { s with gf := { s.gf with cmd := c, status := s.gf.status.start } } := rfl

theorem State.start_pf (s : State W) (c : Word) :
    s.start .pf c = { s with pf := { s.pf with cmd := c, status := s.pf.status.start } } := rfl

@[simp] theorem cmdLoc_exists (e : Engine) : (cmdLoc e).exists W = true := by cases e <;> rfl

@[simp] theorem cmdLoc_writable (e : Engine) : (cmdLoc e).writable = true := by cases e <;> rfl

@[simp] theorem cmdLoc_bank (e : Engine) : (cmdLoc e).bank = e := by cases e <;> rfl

@[simp] theorem State.writeLoc_cmdLoc (s : State W) (e : Engine) (c : Word) : s.writeLoc (cmdLoc e) c = s.start e c := by
  cases e <;> rfl

/-- The events still to come are not looked at by a command start: it may be made before or after they are dropped. -/
theorem State.answer_start_withEvents (s : State W) (e : Engine) (c : Word) :
    (State.start { s with events := evs } e c).answer n h .written rest = (s.start e c).Replied n .written h rest evs := by
  cases e <;> rfl

/-- R35 for either engine: a write of any word to the command register of an idle engine starts a command, and the host is told
that its write was performed. -/
theorem stepAt_cmdWrite {off : BitVec 12} {c : Word} {e : Engine} (hW : W ≤ 4096)
    (hline : s.AtHostLine n (.access (.write 32 off c)) h rest evs) (ho : off.toNat = (cmdLoc e).offset)
    (hb : (s.status e).busy = false) :
    stepAt s = .next ((s.start e c).Replied n .written h rest evs) := by
  have hidle : (State.status { s with events := evs } (cmdLoc e).bank).busy = false := by
    rw [cmdLoc_bank]; cases e <;> exact hb
  rw [stepAt_access hline, State.hostAccess_write hW (cmdLoc_exists e) (cmdLoc_writable e) ho hidle, State.writeLoc_cmdLoc,
    State.answer_start_withEvents]

/-- Settles O11: on each engine the new status is the one `Status.start` gives. -/
theorem commandWriteStartsACommand : Obligations.CommandWriteStartsACommand := by
  refine AtEveryWidth.of_execAt fun W ⟨_, _, hW⟩ => ⟨?gf, ?pf⟩
  case gf =>
    intro s n h c rest evs hline hb
    refine ⟨s.gf.status.start, rfl, rfl, rfl, rfl, s.gf.status.start_word, ?_⟩
    rw [stepAt_cmdWrite (e := .gf) hW hline rfl hb, State.start_gf]
  case pf =>
    intro s n h c rest evs hline hb
    refine ⟨s.pf.status.start, rfl, rfl, rfl, rfl, s.pf.status.start_word, ?_⟩
    rw [stepAt_cmdWrite (e := .pf) hW hline rfl hb, State.start_pf]

/-! ### Reset -/

/-- A reset asserts the reset input, whatever it meets (R200). -/
theorem stepAt_reset (hev : s.events = .reset :: evs) : stepAt s = .next (State.assertReset { s with events := evs }) :=
  stepAt_cons hev

@[simp] theorem Memory.read_nil (j : Nat) : Memory.read [] j = 0#8 := by
  simp [Memory.read, Memory.lookup]

@[simp] theorem Memory.wordAt_nil (m : Nat) : Memory.wordAt [] m = 0#32 := by
  simp [Memory.wordAt]

@[simp] theorem limb_zero (k : Nat) : limb (0#W) k = 0#32 := by
  simp [limb]

/-- Every location reads 0 where both banks are as reset leaves them (R39, R200). -/
theorem State.readLoc_of_reset (hg : s.gf = GfBank.reset) (hp : s.pf = PfBank.reset) (l : Loc) : s.readLoc l = 0 := by
  cases l with
  | pfLimb x k => cases x <;> simp [State.readLoc, State.pfReg, hp, PfBank.reset]
  | pfCmd | pfStatus => simp [State.readLoc, hp, PfBank.reset]
  | _ => simp [State.readLoc, hg, GfBank.reset]

/-- Both engines have the reset status where both banks are as reset leaves them. -/
theorem State.status_of_reset (hg : s.gf = GfBank.reset) (hp : s.pf = PfBank.reset) (e : Engine) :
    s.status e = Status.reset := by
  cases e with
  | gf => rw [State.status_gf, hg]; rfl
  | pf => rw [State.status_pf, hp]; rfl

/-- R39: zero at every location, in every byte of the buffer and in the four PF registers, and no flag of either engine set. -/
def State.AllZero (t : State W) : Prop :=
  (∀ l : Loc, t.readLoc l = 0) ∧ (∀ j, t.gf.rcbuf.read j = 0) ∧ t.pf.a = 0 ∧ t.pf.b = 0 ∧ t.pf.p = 0 ∧ t.pf.r = 0 ∧
  ∀ e, (t.status e).busy = false ∧ (t.status e).done = false ∧ (t.status e).err = false ∧ (t.status e).ecode = 0

/-- A state whose two banks are those of reset holds zero in every register, whatever its hosts and events. -/
theorem State.allZero_of_reset (hg : s.gf = GfBank.reset) (hp : s.pf = PfBank.reset) : s.AllZero := by
  refine ⟨s.readLoc_of_reset hg hp, fun j => ?buffer, ?a, ?b, ?p, ?r, fun e => ?flags⟩
  case buffer => rw [hg]; exact Memory.read_nil j
  case flags => rw [s.status_of_reset hg hp e]; exact ⟨rfl, rfl, rfl, rfl⟩
  all_goals rw [hp]; rfl

/-- Settles O47: the state right after reset and the state a reset event leaves have the same two banks. -/
theorem resetLeavesEveryRegisterZero : Obligations.ResetLeavesEveryRegisterZero := by
  refine ⟨rfl, AtEveryWidth.of_execAt fun W _ => ⟨State.allZero_of_reset rfl rfl, fun s evs hev => ?_⟩⟩
  exact ⟨_, stepAt_reset hev, State.allZero_of_reset rfl rfl, rfl, rfl⟩

end Sys2Proof.Machine
end

section
/-! PROOFS of the family `20_memory.md`: the address map (R51), the three outcomes of an access (R52, R56, R57, R58), and the words
of the buffer (R55). An access is settled by two questions, which location it is made at (`Access.target`) and whether that location
is held (`State.held`); one rule of the step per answer serves reads and writes alike. -/

namespace Sys2Proof.Machine

open Sys2Proof

variable {W : Nat} {s : State W} {n : Nat} {h : HostPort} {rest : List HostOp} {evs : List Event}

/-! ### The address map -/

/-- An offset holds a location exactly when the location is one of the map's and stands there. -/
theorem locate_iff {off : BitVec 12} {l : Loc} (hW : W ≤ 4096) :
    locate W off = some l ↔ l.exists W = true ∧ off.toNat = l.offset :=
  ⟨locate_some, fun ⟨hl, ho⟩ => locate_of_offset hW hl ho⟩

/-- The indexes within the buffer and within a register are all that the map limits. -/
theorem Loc.exists_iff (l : Loc) : l.exists W = true ↔
    (∀ m, l = .gfRcbuf m → m ≤ 63) ∧ (∀ x k, l = .pfLimb x k → k < Config.NL W) := by
  cases l with
  | gfRcbuf m => simp [Loc.exists, Nat.lt_succ_iff]
  | pfLimb x k => simp [Loc.exists]
  | _ => simp [Loc.exists]

/-- A location's bank is known from its offset alone. -/
theorem Loc.bank_by_offset {l : Loc} (hW : W ≤ 4096) (hl : l.exists W = true) :
    (l.bank = .gf ↔ l.offset ≤ 0x1FF) ∧ (l.bank = .pf ↔ 0x200 ≤ l.offset) ∧ l.offset ≤ 0xBFF := by
  obtain ⟨hgf, hpf⟩ := Loc.offset_range hW hl
  cases hb : l.bank with
  | gf => have := hgf hb; exact ⟨by simp; omega, by simp; omega, by omega⟩
  | pf => have := hpf hb; exact ⟨by simp; omega, by simp; omega, by omega⟩

/-- The read-only locations (R40, R51). -/
theorem Loc.writable_eq_false_iff (l : Loc) : l.writable = false ↔
    l = .gfStatus ∨ l = .gfOut ∨ l = .gfRclen ∨ (∃ m, l = .gfRcbuf m) ∨ l = .pfStatus ∨ ∃ k, l = .pfLimb .r k := by
  cases l with
  | pfLimb x k => cases x <;> simp [Loc.writable]
  | _ => simp [Loc.writable]

/-- Settles O6: from a location to its offset and back by `locate_iff`; the columns of the table by the lemmas above. -/
theorem addressMapIsTheTable : Obligations.AddressMapIsTheTable := fun _ ⟨_, _, hW⟩ =>
  ⟨fun _ _ _ => locate_iff hW, rfl, rfl, rfl, rfl, rfl, fun _ => rfl, rfl, rfl, fun _ => ⟨rfl, rfl, rfl, rfl⟩,
    Loc.exists_iff, fun _ => Loc.bank_by_offset hW, Loc.writable_eq_false_iff⟩

/-! ### Which location an access is made at -/

/-- A read is made at a location of the map, by 32 bits at its offset. -/
theorem Access.target_read_iff {width : Nat} {off : BitVec 12} {l : Loc} (hW : W ≤ 4096) :
    (Access.read width off).target W = some l ↔ width = 32 ∧ l.exists W = true ∧ off.toNat = l.offset :=
  locateAligned_iff hW

/-- A write is made at a writable location of the map, by 32 bits at its offset. -/
theorem Access.target_write_iff {width : Nat} {off : BitVec 12} {v : Word} {l : Loc} (hW : W ≤ 4096) :
    (Access.write width off v).target W = some l ↔
      (width = 32 ∧ l.exists W = true ∧ off.toNat = l.offset) ∧ l.writable = true := by
  rw [Access.target, Option.filter_eq_some_iff, locateAligned_iff hW]

/-- The first three checks of R58, for the locations that satisfy `P`: where one of them fails, no such location is found. -/
theorem not_of_locateAligned {P : Loc → Prop} {width : Nat} {off : BitVec 12} {l : Loc}
    (hr : width ≠ 32 ∨ off.toNat % 4 ≠ 0 ∨ ∀ l : Loc, l.exists W = true → P l → off.toNat ≠ l.offset)
    (hl : locateAligned W width off = some l) : ¬ P l := by
  intro hP
  obtain ⟨hwidth, hmap, ho⟩ := locateAligned_some hl
  obtain hr | hr | hr := hr
  · exact hr hwidth
  · exact hr (ho ▸ l.offset_aligned)
  · exact hr l hmap hP ho

/-- R58: a read of a wrong width, not aligned, or unmapped is made at no location. -/
theorem Access.target_read_none {width : Nat} {off : BitVec 12}
    (hr : width ≠ 32 ∨ off.toNat % 4 ≠ 0 ∨ ∀ l : Loc, l.exists W = true → off.toNat ≠ l.offset) :
    (Access.read width off).target W = none :=
  Option.eq_none_iff_forall_ne_some.2 fun _ hl =>
    not_of_locateAligned (P := fun _ => True) (by simpa using hr) hl trivial

/-- R58: a write of a wrong width, not aligned, unmapped, or to a read-only location is made at no location. -/
theorem Access.target_write_none {width : Nat} {off : BitVec 12} {v : Word}
    (hr : width ≠ 32 ∨ off.toNat % 4 ≠ 0 ∨ ∀ l : Loc, l.exists W = true → l.writable = true → off.toNat ≠ l.offset) :
    (Access.write width off v).target W = none :=
  Option.filter_eq_none_iff.2 fun _ hl => not_of_locateAligned (P := fun l => l.writable = true) hr hl

/-! ### Whether it is held -/

/-- The status registers are the locations `statusLoc` names. -/
theorem Loc.isStatus_iff (l : Loc) : l.isStatus = true ↔ l = statusLoc l.bank := by
  cases l <;> simp [Loc.isStatus, Loc.bank, statusLoc]

/-- No status register is writable, so a write is held whenever the bank is busy. -/
theorem Loc.isStatus_of_writable {l : Loc} (hw : l.writable = true) : l.isStatus = false := by
  cases l with
  | gfStatus | pfStatus => simp [Loc.writable] at hw
  | _ => rfl

/-- R37: an access is held exactly when its bank is busy and it is made at another location than the status register. -/
theorem State.held_iff (l : Loc) : s.held l = true ↔ (s.status l.bank).busy = true ∧ l ≠ statusLoc l.bank := by
  rw [State.held, Bool.and_eq_true, Bool.not_eq_true', ← Bool.not_eq_true, Loc.isStatus_iff]

/-! ### The three outcomes of an access -/

/-- An access made at no location is refused, busy bank or idle (R58). -/
theorem stepAt_refused {a : Access} (hline : s.AtHostLine n (.access a) h rest evs) (ht : a.target W = none) :
    stepAt s = .next (s.Replied n .busError h rest evs) := by
  rw [stepAt_access hline, State.hostAccess, ht]; rfl

/-- A held access takes the host's turn and changes nothing (R37). -/
theorem stepAt_held {a : Access} {l : Loc} (hline : s.AtHostLine n (.access a) h rest evs) (ht : a.target W = some l)
    (hheld : s.held l = true) : stepAt s = .next { s with events := evs } := by
  rw [stepAt_access hline, State.hostAccess, ht]
  exact congrArg Host.Outcome.next (if_pos hheld)

/-- An access that is neither refused nor held is performed at once (R56 (3), R57 (3)). -/
theorem stepAt_performed {a : Access} {l : Loc} (hline : s.AtHostLine n (.access a) h rest evs)
    (ht : a.target W = some l) (hheld : s.held l = false) :
    stepAt s = .next (State.perform { s with events := evs } n h rest l a) := by
  rw [stepAt_access hline, State.hostAccess, ht]
  exact congrArg Host.Outcome.next (if_neg (Bool.eq_false_iff.1 hheld))

/-- The events still to come are no location's contents. -/
theorem State.readLoc_withEvents (s : State W) (l : Loc) : State.readLoc { s with events := evs } l = s.readLoc l := by
  cases l with
  | pfLimb x k => cases x <;> rfl
  | _ => rfl

/-- The events still to come are not looked at by a write: it may be made before or after they are dropped. -/
theorem State.answer_writeLoc_withEvents (s : State W) (l : Loc) (v : Word) :
    (State.writeLoc { s with events := evs } l v).answer n h .written rest =
      (s.writeLoc l v).Replied n .written h rest evs := by
  cases l with
  | pfLimb x k => cases x <;> rfl
  | _ => rfl

/-- A read that is not held returns the value of its location and changes no register (R56). -/
theorem stepAt_read {width : Nat} {off : BitVec 12} {l : Loc}
    (hline : s.AtHostLine n (.access (.read width off)) h rest evs) (ht : (Access.read width off).target W = some l)
    (hheld : s.held l = false) : stepAt s = .next (s.Replied n (.value (s.readLoc l)) h rest evs) := by
  rw [stepAt_performed hline ht hheld, State.perform, State.readLoc_withEvents]; rfl

/-- A write that is not held is made at its location, and the host is told so (R57). -/
theorem stepAt_write {width : Nat} {off : BitVec 12} {v : Word} {l : Loc}
    (hline : s.AtHostLine n (.access (.write width off v)) h rest evs)
    (ht : (Access.write width off v).target W = some l) (hheld : s.held l = false) :
    stepAt s = .next ((s.writeLoc l v).Replied n .written h rest evs) := by
  rw [stepAt_performed hline ht hheld, State.perform, State.answer_writeLoc_withEvents]

/-- Settles O7: such an access is made at no location. -/
theorem refusedAccessGetsBusError : Obligations.RefusedAccessGetsBusError := by
  refine AtEveryWidth.of_execAt fun _ _ s n h a rest evs hline hr => stepAt_refused hline ?_
  cases a with
  | read width off => exact Access.target_read_none hr
  | write width off v => exact Access.target_write_none hr

/-- Settles O8: the three outcomes of an access, for a read. -/
theorem readIsRefusedHeldOrPerformed : Obligations.ReadIsRefusedHeldOrPerformed := by
  refine AtEveryWidth.of_execAt fun _ ⟨_, _, hW⟩ s n h width off rest evs hline =>
    ⟨fun hr => stepAt_refused hline (Access.target_read_none hr), fun l hwidth hl ho => ?_⟩
  have ht := (Access.target_read_iff hW).2 ⟨hwidth, hl, ho⟩
  refine ⟨fun hbusy hother => stepAt_held hline ht ((State.held_iff l).2 ⟨hbusy, hother⟩), fun hfree => ?_⟩
  refine stepAt_read hline ht (Bool.eq_false_iff.2 fun hheld => ?_)
  obtain ⟨hbusy, hother⟩ := (State.held_iff l).1 hheld
  obtain hidle | hstatus := hfree
  · exact Bool.false_ne_true (hidle.symm.trans hbusy)
  · exact hother hstatus

/-- Settles O9: the three outcomes of an access, for a write; what is written at each location is `State.writeLoc`'s arm for it. -/
theorem writeIsRefusedHeldOrPerformed : Obligations.WriteIsRefusedHeldOrPerformed := by
  refine AtEveryWidth.of_execAt fun _ ⟨_, _, hW⟩ s n h width off v rest evs hline =>
    ⟨fun hr => stepAt_refused hline (Access.target_write_none hr), fun l hwidth hl hw ho => ?_⟩
  have ht := (Access.target_write_iff (v := v) hW).2 ⟨⟨hwidth, hl, ho⟩, hw⟩
  refine ⟨fun hbusy => stepAt_held hline ht ?held, fun hidle => ?performed⟩
  case held => rw [State.held, hbusy, Loc.isStatus_of_writable hw]; rfl
  case performed =>
    have hstep := stepAt_write hline ht (State.held_of_idle hidle)
    refine ⟨?gfIn, ?a, ?b, ?p, ?cmd⟩
    case gfIn => rintro rfl; exact hstep
    case cmd => rintro e rfl; rwa [State.writeLoc_cmdLoc] at hstep
    all_goals rintro k rfl; exact hstep

/-! ### The words of the buffer -/

/-- Byte 0 is hard-wired (R30). -/
@[simp] theorem Memory.read_zero (buf : Memory) : buf.read 0 = 0#8 := rfl

/-- Byte `i` of word `m` of the buffer is byte `4m + i` of the buffer (R55). -/
theorem Memory.byte_of_wordAt (buf : Memory) (m : Nat) {i : Nat} (hi : i < 4) :
    (buf.wordAt m).extractLsb' (8 * i) 8 = buf.read (4 * m + i) := by
  interval_cases i
  all_goals
    ext k hk
    simp only [Memory.wordAt]
    grind

/-- Byte `j` after GENRCON of a count: the sequence up to the count and 0x00 beyond (R105). -/
theorem Memory.read_rconBytes (count : Nat) {j : Nat} (h1 : 1 ≤ j) (h2 : j ≤ 255) :
    (Memory.ofBytes 1 (rconBytes count)).read j = if j ≤ count then rcon j else 0#8 := by
  rw [Memory.read_ofBytes _ h1 h2, rconBytes_getD count j h1 h2]

/-- R55: the first four words after GENRCON 10. -/
theorem Memory.words_of_rconBytes_ten :
    Memory.wordAt (Memory.ofBytes 1 (rconBytes 10)) 0 = 0x04020100#32 ∧
    Memory.wordAt (Memory.ofBytes 1 (rconBytes 10)) 1 = 0x40201008#32 ∧
    Memory.wordAt (Memory.ofBytes 1 (rconBytes 10)) 2 = 0x00361B80#32 ∧
    Memory.wordAt (Memory.ofBytes 1 (rconBytes 10)) 3 = 0x00000000#32 := by
  simp (disch := decide) only [Memory.wordAt, Nat.mul_zero, Memory.read_zero, Memory.read_rconBytes]
  decide

/-- Settles O13: a byte's place by `Memory.byte_of_wordAt`, since `j = 4 (j / 4) + j mod 4`. -/
theorem bufferIsReadFourBytesAtATime : Obligations.BufferIsReadFourBytesAtATime := by
  refine AtEveryWidth.of_execAt fun _ _ => ⟨fun s j _ => ⟨rfl, ?byte⟩, fun s => ⟨rfl, ?zero⟩, fun s => ?words⟩
  case byte =>
    have := s.gf.rcbuf.byte_of_wordAt (j / 4) (Nat.mod_lt j (by decide : 4 > 0))
    rwa [Nat.div_add_mod] at this
  case zero => exact s.gf.rcbuf.byte_of_wordAt 0 (i := 0) (by decide)
  case words => exact ⟨_, execAt_genrcon 10 s, Memory.words_of_rconBytes_ten⟩

end Sys2Proof.Machine
end

section
/-! PROOFS of the family `30_encoding.md`: which words select which command (R84, R85), which are illegal (R86), and the worked
encodings (R93). One rule says what both directions of decoding need: a word decodes to a command exactly when the command is of the
engine and the three fields of the word are the command's. -/

namespace Sys2Proof

/-! ### A word and its fields -/

/-- A word is its three fields put together (R80). -/
theorem fields_append_fields (c : Word) : zeroField c ++ cntField c ++ opcField c = c := by
  have hlow : cntField c ++ opcField c = c.extractLsb' 0 16 := BitVec.extractLsb'_append_extractLsb'_eq_extractLsb' rfl
  have hall : zeroField c ++ c.extractLsb' 0 16 = c.extractLsb' 0 32 := BitVec.extractLsb'_append_extractLsb'_eq_extractLsb' rfl
  rw [BitVec.append_assoc, hlow, BitVec.cast_eq, hall, BitVec.extractLsb'_eq_self]

/-- A word in format `C` is known by its fields. -/
theorem eq_format_iff {c : Word} {cnt opc : BitVec 8} :
    c = 0#16 ++ cnt ++ opc ↔ zeroField c = 0#16 ∧ opcField c = opc ∧ cntField c = cnt := by
  constructor
  · rintro rfl
    exact Laws.Fields.fields_append cnt opc
  · rintro ⟨hzero, rfl, rfl⟩
    rw [← hzero, fields_append_fields]

/-- The word of a command is known by its fields. -/
theorem eq_encode_iff {c : Word} {i : Instr} :
    c = encode i ↔ zeroField c = 0#16 ∧ opcField c = i.opcode ∧ cntField c = i.countBits := eq_format_iff

/-- The mask of GENRCON's row covers `ZERO` and `OPC` and leaves `CNT` out (R84). -/
theorem and_genrconMask_eq_iff (c : Word) :
    c &&& 0xFFFF00FF#32 = 0x00000002#32 ↔ zeroField c = 0#16 ∧ opcField c = 0x02#8 := by
  have hzero : zeroField (c &&& 0xFFFF00FF#32) = zeroField c :=
    (BitVec.extractLsb'_and ..).trans (BitVec.and_allOnes (x := zeroField c))
  have hopc : opcField (c &&& 0xFFFF00FF#32) = opcField c :=
    (BitVec.extractLsb'_and ..).trans (BitVec.and_allOnes (x := opcField c))
  have hcnt : cntField (c &&& 0xFFFF00FF#32) = 0#8 := (BitVec.extractLsb'_and ..).trans (BitVec.and_zero (x := cntField c))
  rw [show (0x00000002#32 : Word) = 0#16 ++ 0#8 ++ 0x02#8 from rfl, eq_format_iff, hzero, hopc, hcnt]
  simp

/-! ### Decoding -/

/-- What a command that takes no count asks of a word whose `OPC` is its own: that `CNT` is 0 (R82). -/
theorem fields_of_withoutCount {opc cnt : BitVec 8} {i j : Instr} (hcount : i.countBits = 0#8) (hopc : opc = i.opcode)
    (h : withoutCount cnt i = .ok j) : j.engine = i.engine ∧ opc = j.opcode ∧ cnt = j.countBits := by
  unfold withoutCount at h
  split at h
  case isTrue hcnt => cases h; exact ⟨rfl, hopc, hcnt.trans hcount.symm⟩
  case isFalse => cases h

theorem decodeGf_eq_ok_iff {opc cnt : BitVec 8} {i : Instr} :
    decodeGf opc cnt = .ok i ↔ i.engine = .gf ∧ opc = i.opcode ∧ cnt = i.countBits := by
  constructor
  · unfold decodeGf
    split_ifs with hxtime hgenrcon hrotword
    · exact fields_of_withoutCount rfl hxtime
    · rintro ⟨⟩; exact ⟨rfl, hgenrcon, rfl⟩
    · exact fields_of_withoutCount rfl hrotword
    all_goals exact nofun
  · rintro ⟨he, rfl, rfl⟩
    cases i with
    | xtime | genrcon | rotword => rfl
    | _ => cases he

theorem decodePf_eq_ok_iff {opc cnt : BitVec 8} {i : Instr} :
    decodePf opc cnt = .ok i ↔ i.engine = .pf ∧ opc = i.opcode ∧ cnt = i.countBits := by
  constructor
  · unfold decodePf
    split_ifs with hadd hsub hmul hmulinv hdiv hisprime
    · exact fields_of_withoutCount rfl hadd
    · exact fields_of_withoutCount rfl hsub
    · exact fields_of_withoutCount rfl hmul
    · exact fields_of_withoutCount rfl hmulinv
    · exact fields_of_withoutCount rfl hdiv
    · exact fields_of_withoutCount rfl hisprime
    all_goals exact nofun
  · rintro ⟨he, rfl, rfl⟩
    cases i with
    | xtime | genrcon | rotword => cases he
    | _ => rfl

/-- A word decodes to a command exactly when the command is of the engine and its three fields are the word's (R84, R85). -/
theorem decode_eq_ok_iff_fields {e : Engine} {c : Word} {i : Instr} :
    decode e c = .ok i ↔
      i.engine = e ∧ zeroField c = 0#16 ∧ opcField c = i.opcode ∧ cntField c = i.countBits := by
  unfold decode
  split
  case isTrue hzero =>
    cases e with
    | gf => simp [decodeGf_eq_ok_iff, hzero]
    | pf => simp [decodePf_eq_ok_iff, hzero]
  case isFalse hzero => simp [hzero]

/-- A word decodes to a command exactly when it is the command's own word, on the command's own engine. -/
theorem decode_eq_ok_iff {e : Engine} {c : Word} {i : Instr} : decode e c = .ok i ↔ WellFormed e i ∧ c = encode i := by
  rw [decode_eq_ok_iff_fields, eq_encode_iff]

theorem decode_encode (i : Instr) : decode i.engine (encode i) = .ok i := decode_eq_ok_iff.2 ⟨rfl, rfl⟩

/-- On its own engine a command is selected by its word and by no other. -/
theorem decode_own_iff {c : Word} (i : Instr) : decode i.engine c = .ok i ↔ c = encode i :=
  decode_eq_ok_iff.trans (and_iff_right rfl)

/-- GENRCON is selected by its mask and match, and its count is `CNT` (R82, R84). -/
theorem decode_genrcon_iff {c : Word} {n : BitVec 8} :
    decode .gf c = .ok (.genrcon n) ↔ c &&& 0xFFFF00FF#32 = 0x00000002#32 ∧ n = cntField c := by
  rw [decode_eq_ok_iff_fields, and_genrconMask_eq_iff, and_assoc, eq_comm (a := n)]
  exact and_iff_right rfl

/-! ### Words that are no command -/

/-- A word is illegal exactly when it is no command (R86). -/
theorem exists_decode_eq_error_iff {e : Engine} {c : Word} :
    (∃ x, decode e c = .error x) ↔ ¬ ∃ i, decode e c = .ok i := by
  cases decode e c <;> simp

/-- What the GF engine decodes to, if anything, is one of its three commands (R81). -/
theorem exists_decode_gf_iff {c : Word} : (∃ i, decode .gf c = .ok i) ↔
    decode .gf c = .ok .xtime ∨ (∃ n, decode .gf c = .ok (.genrcon n)) ∨ decode .gf c = .ok .rotword := by
  constructor
  · rintro ⟨i, hi⟩
    cases i with
    | xtime => exact .inl hi
    | genrcon n => exact .inr (.inl ⟨n, hi⟩)
    | rotword => exact .inr (.inr hi)
    | _ => cases (decode_eq_ok_iff.1 hi).1
  · rintro (h | ⟨n, h⟩ | h) <;> exact ⟨_, h⟩

/-- What the PF engine decodes to, if anything, is one of its six commands (R81). -/
theorem exists_decode_pf_iff {c : Word} : (∃ i, decode .pf c = .ok i) ↔
    decode .pf c = .ok .add ∨ decode .pf c = .ok .sub ∨ decode .pf c = .ok .mul ∨ decode .pf c = .ok .mulinv ∨
      decode .pf c = .ok .div ∨ decode .pf c = .ok .isprime := by
  constructor
  · rintro ⟨i, hi⟩
    cases i with
    | xtime | genrcon | rotword => cases (decode_eq_ok_iff.1 hi).1
    | _ => simp [hi]
  · rintro (h | h | h | h | h | h) <;> exact ⟨_, h⟩

/-- The words the GF engine accepts (R85). -/
theorem gf_accepts_iff {c : Word} : (∃ i, decode .gf c = .ok i) ↔
    c = 0x00000001#32 ∨ c &&& 0xFFFF00FF#32 = 0x00000002#32 ∨ c = 0x00000003#32 := by
  have hgenrcon : (∃ n, decode .gf c = .ok (.genrcon n)) ↔ c &&& 0xFFFF00FF#32 = 0x00000002#32 := by
    simp only [decode_genrcon_iff, exists_and_left, exists_eq, and_true]
  rw [exists_decode_gf_iff, hgenrcon]
  exact or_congr (decode_own_iff .xtime) (or_congr_right (decode_own_iff .rotword))

/-- The words the PF engine accepts: those of its six commands, which stand in a row (R85). -/
theorem pf_accepts_iff {c : Word} : (∃ i, decode .pf c = .ok i) ↔ 0x00000010#32 ≤ c ∧ c ≤ 0x00000015#32 := by
  have hwords : (∃ i, decode .pf c = .ok i) ↔ c = 0x10#32 ∨ c = 0x11#32 ∨ c = 0x12#32 ∨ c = 0x13#32 ∨ c = 0x14#32 ∨
      c = 0x15#32 :=
    exists_decode_pf_iff.trans <| or_congr (decode_own_iff .add) <| or_congr (decode_own_iff .sub) <|
      or_congr (decode_own_iff .mul) <| or_congr (decode_own_iff .mulinv) <|
      or_congr (decode_own_iff .div) (decode_own_iff .isprime)
  rw [hwords]
  bv_omega

/-- Settles O3: a command without count is selected by its own word, GENRCON by its mask, and the rest of the words by none. -/
theorem eachWordSelectsItsCommand : Obligations.EachWordSelectsItsCommand := fun _ =>
  ⟨decode_own_iff .xtime, fun _ => decode_genrcon_iff, decode_own_iff .rotword,
    decode_own_iff .add, decode_own_iff .sub, decode_own_iff .mul, decode_own_iff .mulinv, decode_own_iff .div,
    decode_own_iff .isprime,
    exists_decode_eq_error_iff.trans (not_congr gf_accepts_iff),
    exists_decode_eq_error_iff.trans (not_congr pf_accepts_iff)⟩

/-- The words the GF engine accepts, by their fields (R86). -/
theorem gf_accepts_iff_fields {c : Word} : (∃ i, decode .gf c = .ok i) ↔ zeroField c = 0#16 ∧
    (opcField c = 0x02#8 ∨ (opcField c = 0x01#8 ∨ opcField c = 0x03#8) ∧ cntField c = 0#8) := by
  have hxtime : c = 0x00000001#32 ↔ zeroField c = 0#16 ∧ opcField c = 0x01#8 ∧ cntField c = 0#8 := eq_encode_iff (i := .xtime)
  have hrotword : c = 0x00000003#32 ↔ zeroField c = 0#16 ∧ opcField c = 0x03#8 ∧ cntField c = 0#8 :=
    eq_encode_iff (i := .rotword)
  rw [gf_accepts_iff, and_genrconMask_eq_iff, hxtime, hrotword]
  tauto

/-- The words the PF engine accepts, by their fields: `ZERO` and `CNT` are 0, and `OPC` is then the word's value (R86). -/
theorem pf_accepts_iff_fields {c : Word} : (∃ i, decode .pf c = .ok i) ↔
    zeroField c = 0#16 ∧ (0x10#8 ≤ opcField c ∧ opcField c ≤ 0x15#8) ∧ cntField c = 0#8 := by
  rw [pf_accepts_iff]
  simp only [zeroField, opcField, cntField, BitVec.le_def, ← BitVec.toNat_inj, BitVec.extractLsb'_toNat,
    BitVec.toNat_ofNat, Nat.shiftRight_eq_div_pow]
  omega

/-- The illegal words of the GF engine (R86). -/
theorem gf_illegal_iff {c : Word} : (∃ x, decode .gf c = .error x) ↔ zeroField c ≠ 0#16 ∨
    (opcField c ≠ 0x01#8 ∧ opcField c ≠ 0x02#8 ∧ opcField c ≠ 0x03#8) ∨
    ((opcField c = 0x01#8 ∨ opcField c = 0x03#8) ∧ cntField c ≠ 0#8) := by
  rw [exists_decode_eq_error_iff, gf_accepts_iff_fields]
  by_cases hopc : opcField c = 0x02#8
  · simp [hopc]
  · tauto

/-- The illegal words of the PF engine (R86). -/
theorem pf_illegal_iff {c : Word} : (∃ x, decode .pf c = .error x) ↔ zeroField c ≠ 0#16 ∨
    ¬ (0x10#8 ≤ opcField c ∧ opcField c ≤ 0x15#8) ∨ cntField c ≠ 0#8 := by
  rw [exists_decode_eq_error_iff, pf_accepts_iff_fields, not_and_or, not_and_or]

namespace Machine

variable {W : Nat} {s : State W} {evs : List Event}

/-! ### The life of an illegal word -/

theorem State.readLoc_cmdLoc (s : State W) (e : Engine) : s.readLoc (cmdLoc e) = s.cmd e := by
  cases e <;> rfl

theorem State.cmd_start (s : State W) (e : Engine) (c : Word) : (s.start e c).cmd e = c := by
  cases e <;> rfl

theorem State.status_start (s : State W) (e : Engine) (c : Word) : (s.start e c).status e = (s.status e).start := by
  cases e <;> rfl

theorem State.cmd_setStatus (s : State W) (e : Engine) (st : Status) : (s.setStatus e st).cmd e = s.cmd e := by
  cases e <;> rfl

theorem State.status_setStatus (s : State W) (e : Engine) (st : Status) : (s.setStatus e st).status e = st := by
  cases e <;> rfl

theorem State.status_withEvents (s : State W) (e : Engine) : State.status { s with events := evs } e = s.status e := by
  cases e <;> rfl

theorem State.cmd_withEvents (s : State W) (e : Engine) : State.cmd { s with events := evs } e = s.cmd e := by
  cases e <;> rfl

/-- A busy engine whose word is no command completes it with `IllegalCommand` (R86). -/
theorem engineTurn_illegal {ex : Instr → State W → Result W} {e : Engine} {x : Illegal}
    (hbusy : (s.status e).busy = true) (hword : decode e (s.cmd e) = .error x) :
    engineTurn ex e s = .next (s.setStatus e ((s.status e).raise .illegalCommand)) := by
  rw [engineTurn, if_pos hbusy, State.fetch, hword, State.raiseIllegal_eq]

/-- The step in which an illegal word completes: one status register is written and nothing else (R86, R173). -/
theorem stepAt_illegal {e : Engine} {x : Illegal} (hev : s.events = .turn (.engine e) :: evs)
    (hbusy : (s.status e).busy = true) (hword : decode e (s.cmd e) = .error x) :
    stepAt s = .next (State.setStatus { s with events := evs } e ((s.status e).raise .illegalCommand)) := by
  rw [← s.status_withEvents (evs := evs)] at hbusy ⊢
  rw [← s.cmd_withEvents (evs := evs)] at hword
  rw [stepAt_cons hev]
  exact engineTurn_illegal hbusy hword

/-- Settles O5: the illegal words by their fields; the write of any word by `State.start`; the completion by `stepAt_illegal`. -/
theorem illegalWordsCompleteWithIllegalCommand : Obligations.IllegalWordsCompleteWithIllegalCommand := by
  refine AtEveryWidth.of_execAt fun W _ => ⟨fun _ => gf_illegal_iff, fun _ => pf_illegal_iff, ⟨_, rfl⟩, ⟨_, rfl⟩, ?write,
    ?completion⟩
  case write =>
    intro s e c
    rw [State.writeLoc_cmdLoc, State.readLoc_cmdLoc, State.cmd_start, State.status_start]
    exact ⟨rfl, rfl⟩
  case completion =>
    intro s e x evs hev hbusy hword
    refine ⟨_, stepAt_illegal hev hbusy hword, ?_⟩
    rw [State.status_setStatus, State.readLoc_cmdLoc, State.cmd_setStatus, State.cmd_withEvents]
    exact ⟨Status.raise_word _ .illegalCommand, rfl, rfl⟩

/-! ### The worked encodings -/

/-- GENRCON 0 completes with `InvalidInput` from every state (R105). -/
theorem execAt_genrcon_zero (s : State W) : ∃ t, execAt (.genrcon 0) s = .next t ∧ t.gf.status.word = 0x00000016#32 :=
  ⟨_, execAt_genrcon 0 s, s.gf.status.raise_word .invalidInput⟩

/-- Settles O1: the words that are commands decode by `decode_encode`; the others fail the check that R93 names. -/
theorem workedEncodingsDecode : Obligations.WorkedEncodingsDecode :=
  ⟨rfl, rfl, decode_encode (.genrcon 10), rfl, decode_encode (.genrcon 255), rfl, decode_encode (.genrcon 0),
    AtEveryWidth.of_execAt fun _ _ => execAt_genrcon_zero, rfl, rfl, rfl, decode_encode .add, .otherEngine, rfl⟩

end Machine

end Sys2Proof
end

section
/-! PROOFS of the family `40_gf256.md`, the multiplier and its sequence: `xtime` as an exclusive-or of a shift and a constant
(R100), from which its product with `x`, its injectivity and the R_CON sequence follow (R101, R103, R106). -/

namespace Sys2Proof.Machine

open Sys2Proof Polynomial

/-! ### The multiplier by x -/

/-- R100 in 8 bits: bit 8 of the doubled value is cut, so bit 8 of `POLY` has no effect. -/
theorem xtime_eq_shiftLeft_xor (v : Byte) : xtime v = (v <<< 1) ^^^ (if v.getLsbD 7 = true then 0x1B#8 else 0x00#8) := by
  have hdoubled : (v.setWidth 9 <<< 1).setWidth 8 = v <<< 1 := by
    rw [BitVec.setWidth_shiftLeft_of_le (by decide), BitVec.setWidth_setWidth_of_le _ (by decide), BitVec.setWidth_eq]
  have hpoly : Config.poly.setWidth 8 = 0x1B#8 := rfl
  unfold xtime
  split
  · rw [BitVec.setWidth_xor, hdoubled, hpoly]
  · rw [hdoubled, BitVec.xor_zero]

/-- R100 as numbers: the value is doubled in nine bits, where nothing is lost. -/
theorem toNat_xtime (v : Byte) :
    (xtime v).toNat = (if v.getLsbD 7 = true then (2 * v.toNat) ^^^ 0x11B else 2 * v.toNat) &&& 0xFF := by
  have hdoubled : (v.setWidth 9 <<< 1).toNat = 2 * v.toNat := by
    rw [BitVec.toNat_shiftLeft, BitVec.toNat_setWidth]; omega
  rw [show (0xFF : Nat) = 2 ^ 8 - 1 from rfl, Nat.and_two_pow_sub_one_eq_mod]
  unfold xtime
  split
  · rw [BitVec.toNat_setWidth, BitVec.toNat_xor, hdoubled]; rfl
  · rw [BitVec.toNat_setWidth, hdoubled]

/-- R102: bit 7 goes out at bit 0. -/
theorem getLsbD_zero_xtime (v : Byte) : (xtime v).getLsbD 0 = v.getLsbD 7 := by
  rw [xtime_eq_shiftLeft_xor]
  cases v.getLsbD 7 <;> simp

/-- A shift by one moves each bit but the top one up by one. -/
theorem getLsbD_shiftLeft_one (v : Byte) {i : Nat} (hi : i + 1 < 8) : (v <<< 1).getLsbD (i + 1) = v.getLsbD i := by
  rw [BitVec.getLsbD_shiftLeft]
  simp [hi]

/-- Bit 0 of the product tells bit 7 of the octet, so whether there was a reduction; the shift then tells bits 6 to 0. -/
theorem xtime_injective : Function.Injective xtime := by
  intro v w h
  have htop : v.getLsbD 7 = w.getLsbD 7 := by rw [← getLsbD_zero_xtime, h, getLsbD_zero_xtime]
  have hshift : v <<< 1 = w <<< 1 := by
    rwa [xtime_eq_shiftLeft_xor, xtime_eq_shiftLeft_xor, htop, BitVec.xor_left_inj] at h
  refine BitVec.eq_of_getLsbD_eq fun i hi => ?_
  obtain rfl | hlow : i = 7 ∨ i + 1 < 8 := by omega
  · exact htop
  · rw [← getLsbD_shiftLeft_one v hlow, hshift, getLsbD_shiftLeft_one w hlow]

theorem xtime_bijective : Function.Bijective xtime := Finite.injective_iff_bijective.1 xtime_injective

/-! ### Octets as polynomials over the field of two elements -/

/-- The polynomial whose coefficients are the bits of an octet (R8). -/
noncomputable def octetPoly (v : Byte) : (ZMod 2)[X] :=
  ∑ i ∈ Finset.range 8, if v.getLsbD i = true then X ^ i else 0

/-- The reduction polynomial (R6). -/
noncomputable def reductionPoly : (ZMod 2)[X] := X ^ 8 + X ^ 4 + X ^ 3 + X + 1

/-- Addition over two elements is exclusive-or. -/
theorem octetPoly_xor (v w : Byte) : octetPoly (v ^^^ w) = octetPoly v + octetPoly w := by
  simp only [octetPoly, ← Finset.sum_add_distrib]
  refine Finset.sum_congr rfl fun i _ => ?_
  rw [BitVec.getLsbD_xor]
  cases v.getLsbD i <;> cases w.getLsbD i <;> simp [CharTwo.add_self_eq_zero]

/-- A shift multiplies by `x`, but for the bit that it drops. -/
theorem octetPoly_shiftLeft (v : Byte) :
    X * octetPoly v = octetPoly (v <<< 1) + if v.getLsbD 7 = true then X ^ 8 else 0 := by
  have hterm : ∀ i ∈ Finset.range 7, X * (if v.getLsbD i = true then X ^ i else 0 : (ZMod 2)[X]) =
      if (v <<< 1).getLsbD (i + 1) = true then X ^ (i + 1) else 0 := by
    intro i hi
    rw [Finset.mem_range] at hi
    have hlow : i + 1 < 8 := by omega
    rw [getLsbD_shiftLeft_one v hlow, mul_ite, mul_zero, pow_succ']
  have htop : X * (if v.getLsbD 7 = true then X ^ 7 else 0 : (ZMod 2)[X]) = if v.getLsbD 7 = true then X ^ 8 else 0 := by
    rw [mul_ite, mul_zero, ← pow_succ']
  have hbottom : (if (v <<< 1).getLsbD 0 = true then X ^ 0 else 0 : (ZMod 2)[X]) = 0 := by simp
  calc X * octetPoly v
      = ∑ i ∈ Finset.range 7, X * (if v.getLsbD i = true then X ^ i else 0) + X * (if v.getLsbD 7 = true then X ^ 7 else 0) := by
        rw [octetPoly, Finset.sum_range_succ, mul_add, Finset.mul_sum]
    _ = (∑ i ∈ Finset.range 7, if (v <<< 1).getLsbD (i + 1) = true then X ^ (i + 1) else 0) +
          if v.getLsbD 7 = true then X ^ 8 else 0 := by
        rw [Finset.sum_congr rfl hterm, htop]
    _ = octetPoly (v <<< 1) + if v.getLsbD 7 = true then X ^ 8 else 0 := by
        rw [octetPoly, Finset.sum_range_succ' _ 7, hbottom, add_zero]

/-- What is left of the product by `x` after `xtime` is the reduction polynomial, or nothing. -/
theorem X_mul_octetPoly_sub (v : Byte) :
    X * octetPoly v - octetPoly (xtime v) = if v.getLsbD 7 = true then reductionPoly else 0 := by
  have hconst : octetPoly 0x1B#8 = X ^ 4 + X ^ 3 + X + 1 := by
    simp [octetPoly, Finset.sum_range_succ]; ring
  rw [octetPoly_shiftLeft, xtime_eq_shiftLeft_xor, octetPoly_xor, add_sub_add_left_eq_sub]
  split
  · rw [hconst, reductionPoly, CharTwo.sub_eq_add]; ring
  · simp [octetPoly]

/-- R100: `xtime` is multiplication by `x` modulo the reduction polynomial. -/
theorem reductionPoly_dvd_xtime (v : Byte) : reductionPoly ∣ X * octetPoly v - octetPoly (xtime v) := by
  rw [X_mul_octetPoly_sub]
  split
  · exact dvd_rfl
  · exact dvd_zero _

/-- Settles O17: both forms of R100 from the definition, the product by `reductionPoly_dvd_xtime`. -/
theorem xtimeMultipliesByX : Obligations.XtimeMultipliesByX := fun v =>
  ⟨toNat_xtime v, xtime_eq_shiftLeft_xor v, reductionPoly_dvd_xtime v⟩

/-! ### The R_CON sequence -/

theorem rcon_one : rcon 1 = 0x01#8 := rfl

/-- R103: each element after the first is the next power of `x`, by one multiplication (`reductionPoly_dvd_xtime`). -/
theorem reductionPoly_dvd_rcon (n : Nat) : reductionPoly ∣ X ^ n - octetPoly (rcon (n + 1)) := by
  induction n with
  | zero => simp [rcon_one, octetPoly]
  | succ n ih =>
    have hstep : X ^ (n + 1) - octetPoly (rcon (n + 2)) =
        X * (X ^ n - octetPoly (rcon (n + 1))) + (X * octetPoly (rcon (n + 1)) - octetPoly (xtime (rcon (n + 1)))) := by
      rw [rcon]; ring
    rw [hstep]
    exact dvd_add (ih.mul_left X) (reductionPoly_dvd_xtime _)

/-- Settles O18: the recurrence is the definition's, the powers of `x` are `reductionPoly_dvd_rcon`. -/
theorem rconIsThePowerOfX : Obligations.RconIsThePowerOfX := by
  refine ⟨rfl, fun i hi => ?recurrence, rcon_one, fun i hi => ?power⟩
  all_goals obtain ⟨n, rfl⟩ := Nat.exists_eq_add_of_le' hi
  case recurrence => rfl
  case power => exact reductionPoly_dvd_rcon n

/-- The sequence is the iteration of `xtime` from the seed. -/
theorem rcon_eq_iterate (i : Nat) : rcon i = xtime^[i] Config.seed := by
  induction i with
  | zero => rfl
  | succ i ih => rw [Function.iterate_succ_apply', ← ih, rcon]

theorem isPeriodicPt_iff_rcon_eq_seed (i : Nat) : Function.IsPeriodicPt xtime i Config.seed ↔ rcon i = Config.seed := by
  rw [rcon_eq_iterate]; rfl

/-- From the seed on, the sequence first comes back to it at element 51. -/
theorem find_seed_in_rcon : (List.range' 1 51).find? (fun i => rcon i == Config.seed) = some 51 := by decide

/-- 51 is the least period (R106). -/
theorem minimalPeriod_xtime_seed : Function.minimalPeriod xtime Config.seed = 51 := by
  obtain ⟨hback, -, hfirst⟩ := List.find?_range'_eq_some.1 find_seed_in_rcon
  have hperiod : Function.IsPeriodicPt xtime 51 Config.seed := (isPeriodicPt_iff_rcon_eq_seed 51).2 (beq_iff_eq.1 hback)
  refine le_antisymm (hperiod.minimalPeriod_le (by decide)) (not_lt.1 fun hlt => ?_)
  have hne : rcon (Function.minimalPeriod xtime Config.seed) ≠ Config.seed := by
    simpa using hfirst _ (hperiod.minimalPeriod_pos (by decide)) hlt
  exact hne ((isPeriodicPt_iff_rcon_eq_seed _).1 (Function.isPeriodicPt_minimalPeriod _ _))

/-- The seed comes back at the multiples of 51 and nowhere else. -/
theorem rcon_eq_seed_iff (i : Nat) : rcon i = Config.seed ↔ 51 ∣ i := by
  rw [← isPeriodicPt_iff_rcon_eq_seed, Function.isPeriodicPt_iff_minimalPeriod_dvd, minimalPeriod_xtime_seed]

theorem rcon_add_period (i : Nat) : rcon (i + 51) = rcon i := by
  rw [rcon_eq_iterate, Function.iterate_add_apply, ← rcon_eq_iterate 51, (rcon_eq_seed_iff 51).2 dvd_rfl, ← rcon_eq_iterate]

/-- `xtime` fixes 0x00 and is injective, so no element of the sequence is 0x00. -/
theorem rcon_ne_zero (i : Nat) : rcon i ≠ 0x00#8 := by
  induction i with
  | zero => decide
  | succ i ih => exact xtime_injective.ne (a₂ := 0x00#8) ih

/-- Settles O20: the table by evaluation, the period and its being least by `rcon_eq_seed_iff`. -/
theorem rconHasPeriodFiftyOne : Obligations.RconHasPeriodFiftyOne := by
  have hseed (m : Nat) : rcon (51 * m) = 0x8D#8 := (rcon_eq_seed_iff _).2 (dvd_mul_right ..)
  refine ⟨rfl, fun _ => rfl, by decide, rcon_add_period, fun k h1 h51 => ⟨51, by decide, by omega, ?least⟩, rcon_ne_zero,
    rcon_add_period 1, hseed 2, hseed 3, hseed 4, hseed 5⟩
  case least =>
    rw [Nat.add_comm, rcon_add_period, (rcon_eq_seed_iff 51).2 dvd_rfl, Ne, rcon_eq_seed_iff]
    omega

end Sys2Proof.Machine
end

section
/-! PROOFS of the family `40_gf256.md`, the word rotator: where each bit of a Word goes (R108), and what follows for its bytes and
for repeated rotation (R107, R110). -/

namespace Sys2Proof.Machine

open Sys2Proof

/-- R108, bit by bit: 8 places up, around the end. -/
theorem getLsbD_rotword (w : Word) {i : Nat} (hi : i < 32) : (rotword w).getLsbD i = w.getLsbD ((i + 24) % 32) := by
  rw [rotword, BitVec.getLsbD_append]
  split
  case isTrue hbottom =>
    rw [BitVec.getLsbD_extractLsb', Nat.mod_eq_of_lt (by omega), Nat.add_comm]
    simp [hbottom]
  case isFalse hrest =>
    rw [BitVec.getLsbD_extractLsb', show (i + 24) % 32 = i - 8 by omega]
    simp [show i - 8 < 24 by omega]

theorem rotword_eq_rotateLeft (w : Word) : rotword w = w.rotateLeft 8 := by
  refine BitVec.eq_of_getLsbD_eq fun i hi => ?_
  rw [getLsbD_rotword w hi, BitVec.getLsbD_rotateLeft, Bool.cond_decide]
  split
  case isTrue hbottom => congr 1; omega
  case isFalse hrest => rw [show (i + 24) % 32 = i - 8 % 32 by omega]; simp [hi]

/-- Bit `j` of byte `k` of a Word in a register (R107). -/
theorem getLsbD_wordByte (w : Word) (k : Nat) {j : Nat} (hj : j < 8) :
    (wordByte w k).getLsbD j = w.getLsbD (24 - 8 * k + j) := by
  simp [wordByte, hj]

/-- Byte `k` of the rotated Word is the next byte of the Word, and byte 0 comes after byte 3 (R108). -/
theorem wordByte_rotword (w : Word) {k : Nat} (hk : k < 4) : wordByte (rotword w) k = wordByte w ((k + 1) % 4) := by
  refine BitVec.eq_of_getLsbD_eq fun j hj => ?_
  rw [getLsbD_wordByte _ _ hj, getLsbD_wordByte _ _ hj, getLsbD_rotword _ (by omega)]
  congr 1
  omega

/-- Settles O23: the bytes by `wordByte_rotword`, the forms of the rotation by `rotword_eq_rotateLeft`. -/
theorem rotwordMovesEachByte : Obligations.RotwordMovesEachByte := fun w =>
  ⟨rfl, rfl, rfl, rfl, wordByte_rotword w (k := 0) (by decide), wordByte_rotword w (k := 1) (by decide),
    wordByte_rotword w (k := 2) (by decide), wordByte_rotword w (k := 3) (by decide), rfl,
    (rotword_eq_rotateLeft w).trans BitVec.rotateLeft_def, rotword_eq_rotateLeft w⟩

/-! ### Repeated rotation -/

/-- `n` rotations move each bit `8 n` places up, around the end. -/
theorem getLsbD_rotword_iterate (w : Word) (n : Nat) {i : Nat} (hi : i < 32) :
    (rotword^[n] w).getLsbD i = w.getLsbD ((i + 24 * n) % 32) := by
  induction n generalizing i with
  | zero => rw [Function.iterate_zero_apply, Nat.mul_zero, Nat.add_zero, Nat.mod_eq_of_lt hi]
  | succ n ih =>
    rw [Function.iterate_succ_apply', getLsbD_rotword _ hi, ih (Nat.mod_lt _ (by decide))]
    congr 1
    omega

theorem rotword_four (w : Word) : rotword (rotword (rotword (rotword w))) = w := by
  refine BitVec.eq_of_getLsbD_eq fun i hi => ?_
  rw [show rotword (rotword (rotword (rotword w))) = rotword^[4] w from rfl, getLsbD_rotword_iterate w 4 hi]
  congr 1
  omega

/-- Three rotations are the inverse of one, on either side (R110). -/
theorem rotword_eq_iff (w v : Word) : rotword w = v ↔ w = rotword (rotword (rotword v)) := by
  constructor
  · rintro rfl
    exact (rotword_four w).symm
  · rintro rfl
    exact rotword_four v

theorem rotword_bijective : Function.Bijective rotword :=
  Function.bijective_iff_existsUnique rotword |>.2 fun v =>
    ⟨rotword (rotword (rotword v)), rotword_four v, fun w hw => (rotword_eq_iff w v).1 hw⟩

theorem rotword_two (w : Word) : rotword (rotword w) = w.extractLsb' 0 16 ++ w.extractLsb' 16 16 := by
  refine BitVec.eq_of_getLsbD_eq fun i hi => ?_
  rw [show rotword (rotword w) = rotword^[2] w from rfl, getLsbD_rotword_iterate w 2 hi, BitVec.getLsbD_append]
  split
  case isTrue hbottom =>
    rw [BitVec.getLsbD_extractLsb', show (i + 24 * 2) % 32 = 16 + i by omega]
    simp [hbottom]
  case isFalse htop =>
    rw [BitVec.getLsbD_extractLsb', show (i + 24 * 2) % 32 = i - 16 by omega]
    simp [show i - 16 < 16 by omega]

/-- Settles O25: four rotations and two by `getLsbD_rotword_iterate`, the inverse from four rotations. -/
theorem fourRotationsReturnTheWord : Obligations.FourRotationsReturnTheWord :=
  ⟨rotword_four, rotword_bijective, rotword_eq_iff, rotword_two⟩

/-- A Word of four equal bytes is left as it is (R109). -/
theorem rotword_equalBytes (b : Byte) : rotword (b ++ b ++ b ++ b) = b ++ b ++ b ++ b := by
  have hbit {i : Nat} (hi : i < 32) : (b ++ b ++ b ++ b).getLsbD i = b.getLsbD (i % 8) := by
    simp only [BitVec.getLsbD_append]
    split_ifs <;> (congr 1; omega)
  refine BitVec.eq_of_getLsbD_eq fun i hi => ?_
  rw [getLsbD_rotword _ hi, hbit hi, hbit (Nat.mod_lt _ (by decide))]
  congr 1
  omega

end Sys2Proof.Machine
end

section
/-! PROOFS of the family `40_gf256.md`, the three commands: how each ends (R101, R105, R109), and the turn of the busy engine,
word by word (R111). -/

namespace Sys2Proof.Machine

open Sys2Proof

variable {W : Nat} {s : State W} {evs : List Event}

/-! ### XTIME -/

/-- `GF_IN` holds an Octet exactly when bits 31:8 are zero (R101). -/
theorem extractLsb'_high_eq_zero_iff (w : Word) : w.extractLsb' 8 24 = 0#24 ↔ w.toNat < 256 := by
  rw [← BitVec.toNat_inj, BitVec.extractLsb'_toNat, Nat.shiftRight_eq_div_pow, BitVec.toNat_ofNat]
  omega

/-- R101 with an Octet in `GF_IN`. -/
theorem execAt_xtime_octet (h : s.gf.input.extractLsb' 8 24 = 0#24) :
    execAt .xtime s = .next { s with gf := { s.gf with
      out := (xtime (s.gf.input.extractLsb' 0 8)).setWidth 32, status := s.gf.status.complete } } := by
  rw [execAt_xtime, octetOperand_eq_some _ h]

/-- R101 with a value of 256 or more in `GF_IN`. -/
theorem execAt_xtime_invalid (h : s.gf.input.extractLsb' 8 24 ≠ 0#24) :
    execAt .xtime s = .next { s with gf := { s.gf with out := 0, status := s.gf.status.raise .invalidInput } } := by
  rw [execAt_xtime, (octetOperand_eq_none _).2 h]

/-- Settles O19: the two ends of XTIME, the corner cases by evaluation, the bijection by `xtime_injective`. -/
theorem xtimeDoublesTheOctet : Obligations.XtimeDoublesTheOctet := by
  refine AtEveryWidth.of_execAt fun W _ => ⟨rfl, fun s h => ?octet, fun s h => ?invalid, rfl, rfl, rfl, rfl, rfl, xtime_bijective⟩
  case octet =>
    have hoctet := (extractLsb'_high_eq_zero_iff _).2 h
    exact ⟨_, execAt_xtime_octet hoctet, rfl, s.gf.status.complete_word, rfl⟩
  case invalid =>
    have hhigh := mt (extractLsb'_high_eq_zero_iff _).1 (Nat.not_lt.2 h)
    exact ⟨_, execAt_xtime_invalid hhigh, rfl, s.gf.status.raise_word .invalidInput, rfl⟩

/-! ### GENRCON -/

theorem toNat_encode_genrcon (n : BitVec 8) : (encode (.genrcon n)).toNat = n.toNat * 256 + 2 := by
  rw [encode, BitVec.toNat_append, BitVec.toNat_append, ← Nat.shiftLeft_add_eq_or_of_lt (Instr.genrcon n).opcode.isLt,
    ← Nat.shiftLeft_add_eq_or_of_lt (Instr.genrcon n).countBits.isLt]
  simp [Instr.countBits, Instr.opcode, Nat.shiftLeft_eq]

/-- R105 with a count of at least 1. -/
theorem execAt_genrcon_of_pos {n : BitVec 8} (h : 1 ≤ n.toNat) :
    execAt (.genrcon n) s = .next { s with gf := { s.gf with
      rclen := n, rcbuf := Memory.ofBytes 1 (rconBytes n.toNat), status := s.gf.status.complete } } := by
  rw [execAt_genrcon, if_neg (Nat.not_lt.2 h)]

/-- Settles O21: the buffer's bytes by `Memory.read_rconBytes`. -/
theorem genrconFillsTheBuffer : Obligations.GenrconFillsTheBuffer := by
  refine AtEveryWidth.of_execAt fun W _ =>
    ⟨toNat_encode_genrcon, fun n s h => ?fills, fun s => ?zero, rcon_one, (rcon_eq_seed_iff 255).2 (by decide)⟩
  case fills =>
    exact ⟨_, execAt_genrcon_of_pos h, rfl, fun j => Memory.read_rconBytes n.toNat, rfl, s.gf.status.complete_word, rfl⟩
  case zero =>
    exact ⟨_, execAt_genrcon 0 s, rfl, fun j _ _ => Memory.read_nil j, rfl, s.gf.status.raise_word .invalidInput, rfl⟩

/-- The buffer GENRCON leaves, a function of the count alone (R104). -/
def genrconBuffer (n : BitVec 8) : Memory := if n.toNat < 1 then [] else Memory.ofBytes 1 (rconBytes n.toNat)

/-- R104: whatever the state before, GENRCON leaves the count and the buffer of that count. -/
theorem registers_of_execAt_genrcon {n : BitVec 8} {t : State W} (h : execAt (.genrcon n) s = .next t) :
    t.gf.rclen = n ∧ t.gf.rcbuf = genrconBuffer n := by
  rw [execAt_genrcon] at h
  cases h
  unfold genrconBuffer
  split
  case isTrue hzero => exact ⟨(BitVec.eq_of_toNat_eq (Nat.lt_one_iff.1 hzero)).symm, rfl⟩
  case isFalse => exact ⟨rfl, rfl⟩

/-- Up to the count the buffer holds the R_CON sequence. -/
theorem read_genrconBuffer {n : BitVec 8} {j : Nat} (h1 : 1 ≤ j) (hj : j ≤ n.toNat) : (genrconBuffer n).read j = rcon j := by
  have hn := n.isLt
  rw [genrconBuffer, if_neg (by omega), Memory.read_rconBytes _ h1 (by omega), if_pos hj]

/-- Settles O22: all three claims read the buffer `genrconBuffer`, in which the state before does not occur. -/
theorem genrconStartsFromTheSeed : Obligations.GenrconStartsFromTheSeed := by
  refine ⟨rfl, rfl, AtEveryWidth.of_execAt fun W _ => ⟨?first, ?same, ?begins⟩⟩
  case first =>
    intro n s t hn h
    rw [(registers_of_execAt_genrcon h).2, read_genrconBuffer (le_refl 1) hn, rcon, rcon]
  case same =>
    intro n s s' t t' h h'
    obtain ⟨hlen, hbuf⟩ := registers_of_execAt_genrcon h
    obtain ⟨hlen', hbuf'⟩ := registers_of_execAt_genrcon h'
    exact ⟨hlen.trans hlen'.symm, hbuf.trans hbuf'.symm⟩
  case begins =>
    intro n m s s' t t' hnm h h' j h1 hj
    rw [(registers_of_execAt_genrcon h).2, (registers_of_execAt_genrcon h').2, read_genrconBuffer h1 hj,
      read_genrconBuffer h1 (hj.trans (BitVec.le_def.1 hnm))]

/-! ### ROTWORD -/

/-- Settles O24: the end of ROTWORD is `execAt_rotword`; the fixed points are `rotword_equalBytes`. -/
theorem rotwordRotatesWithoutError : Obligations.RotwordRotatesWithoutError := by
  refine AtEveryWidth.of_execAt fun W _ => ⟨rfl, fun s => ?ends, rfl, rfl, rotword_equalBytes, rfl, rfl, rfl⟩
  exact ⟨_, execAt_rotword s, rfl, s.gf.status.complete_word, rfl⟩

/-! ### The turn of the busy engine -/

/-- The step in which a busy engine completes the command in its command register (R36, R85). -/
theorem stepAt_command {e : Engine} {i : Instr} (hev : s.events = .turn (.engine e) :: evs)
    (hbusy : (s.status e).busy = true) (hword : decode e (s.cmd e) = .ok i) :
    stepAt s = execAt i { s with events := evs } := by
  rw [← s.status_withEvents (evs := evs)] at hbusy
  rw [← s.cmd_withEvents (evs := evs)] at hword
  rw [stepAt_cons hev, happen, engineTurn, if_pos hbusy, State.fetch, hword]

/-- Of the words of GENRCON, the one whose count is 0 is the word 0x00000002 (R82). -/
theorem eq_genrcon_zero_iff {c : Word} (hmask : c &&& 0xFFFF00FF#32 = 0x00000002#32) :
    c = 0x00000002#32 ↔ cntField c = 0#8 := by
  obtain ⟨hzero, hopc⟩ := (and_genrconMask_eq_iff c).1 hmask
  rw [show (0x00000002#32 : Word) = encode (.genrcon 0) from rfl, eq_encode_iff]
  exact ⟨fun h => h.2.2, fun h => ⟨hzero, hopc, h⟩⟩

/-- Settles O26: one case per row of R111, each the end of the command that the word decodes to. -/
theorem gfOutcomesAreTheTable : Obligations.GfOutcomesAreTheTable := by
  refine AtEveryWidth.of_execAt fun W _ s evs hev hbusy => ?_
  have hcommand {i : Instr} (hword : decode .gf s.gf.cmd = .ok i) : stepAt s = execAt i { s with events := evs } :=
    stepAt_command hev hbusy hword
  split_ifs with hxtime hinvalid hgenrcon hzero hrotword
  -- XTIME, `GF_IN[31:8]` not zero
  · have hstep := (hcommand ((decode_own_iff .xtime).2 hxtime)).trans (execAt_xtime_invalid hinvalid)
    exact ⟨_, hstep, rfl, rfl, rfl, rfl, rfl, rfl, rfl, rfl, rfl, s.gf.status.raise_word .invalidInput⟩
  -- XTIME otherwise
  · have hstep := (hcommand ((decode_own_iff .xtime).2 hxtime)).trans (execAt_xtime_octet (not_not.1 hinvalid))
    exact ⟨_, hstep, rfl, rfl, rfl, rfl, rfl, rfl, rfl, rfl, rfl, s.gf.status.complete_word⟩
  -- GENRCON 0
  · have hcount : 0#8 = cntField s.gf.cmd := ((eq_genrcon_zero_iff hgenrcon).1 hzero).symm
    have hstep := (hcommand (decode_genrcon_iff.2 ⟨hgenrcon, hcount⟩)).trans (execAt_genrcon 0 _)
    exact ⟨_, hstep, rfl, rfl, rfl, rfl, rfl, rfl, rfl, rfl, Memory.read_nil, s.gf.status.raise_word .invalidInput⟩
  -- GENRCON with another count
  · have hpos : 1 ≤ (cntField s.gf.cmd).toNat := by
      rw [eq_genrcon_zero_iff hgenrcon] at hzero
      bv_omega
    have hstep := (hcommand (decode_genrcon_iff.2 ⟨hgenrcon, rfl⟩)).trans (execAt_genrcon_of_pos hpos)
    exact ⟨_, hstep, rfl, rfl, rfl, rfl, rfl, rfl, rfl, rfl, fun j => Memory.read_rconBytes _, s.gf.status.complete_word⟩
  -- ROTWORD
  · have hstep := (hcommand ((decode_own_iff .rotword).2 hrotword)).trans (execAt_rotword _)
    exact ⟨_, hstep, rfl, rfl, rfl, rfl, rfl, rfl, rfl, rfl, rfl, s.gf.status.complete_word⟩
  -- a word that is no command
  · obtain ⟨x, hword⟩ : ∃ x, decode .gf s.gf.cmd = .error x := by
      rw [exists_decode_eq_error_iff, gf_accepts_iff]
      simp only [hxtime, hgenrcon, hrotword, or_self, not_false_eq_true]
    exact ⟨_, stepAt_illegal hev hbusy hword, rfl, rfl, rfl, rfl, rfl, rfl, rfl, rfl, rfl,
      s.gf.status.raise_word .illegalCommand⟩

end Sys2Proof.Machine
end

section
/-! PROOFS of the family `41_primefield.md`, the functions on naturals: subtraction (R134), the inverse (R138, R142), primality
(R146), and the properties R150 lists. -/

namespace Sys2Proof.Machine

variable {a b p x y : Nat}

/-! ### Subtraction -/

/-- `modsub` is the least non-negative residue of the integer difference (R134). -/
theorem natCast_modsub (hp : 2 ≤ p) : (modsub a b p : Int) = ((a : Int) - b) % p := by
  have hb : b % p < p := Nat.mod_lt _ (by omega)
  have hcast : ((a % p + p - b % p : Nat) : Int) = (a : Int) % p + p - (b : Int) % p := by omega
  rw [modsub, Int.natCast_mod, hcast]
  simp [Int.sub_emod]

/-- Where `a + p - b` is a natural, the source's formula gives the same (R134). -/
theorem sourceSub_eq_modsub (hp : 2 ≤ p) (hb : b ≤ a + p) : (a + p - b) % p = modsub a b p := by
  have hcast : ((a + p - b : Nat) : Int) = (a - b : Int) + p := by omega
  apply Int.natCast_inj.1
  rw [natCast_modsub hp, Int.natCast_mod, hcast, Int.add_emod_right]

theorem modadd_modsub_cancel (hp : 2 ≤ p) : modadd (modsub a b p) b p = a % p := by
  apply Int.natCast_inj.1
  rw [modadd, Int.natCast_mod, Int.natCast_add, natCast_modsub hp, Int.emod_add_emod, sub_add_cancel, Int.natCast_mod]

theorem modsub_self (a p : Nat) : modsub a a p = 0 := by
  rw [modsub, Nat.add_sub_cancel_left, Nat.mod_self]

/-! ### The inverse -/

theorem natCast_modinv (hp : 2 ≤ p) : (modinv a p : Int) = (euclid p p (a % p) 0 1).2 % p :=
  Int.toNat_of_nonneg (Int.emod_nonneg _ (by omega))

theorem modinv_lt (hp : 2 ≤ p) : modinv a p < p := by
  have hlt := Int.emod_lt_of_pos (euclid p p (a % p) 0 1).2 (by omega : (0 : Int) < p)
  rw [← natCast_modinv hp] at hlt
  exact_mod_cast hlt

/-- `modinv` is an inverse wherever there is one (R138): the coefficient the iteration ends with, reduced. -/
theorem mul_modinv_mod (hp : 2 ≤ p) (hgcd : Nat.gcd (a % p) p = 1) : a * modinv a p % p = 1 := by
  have hdvd := (euclid_start a p hp).2
  rw [hgcd] at hdvd
  have hmod : ((a * modinv a p : Nat) : Int) ≡ (1 : Nat) [ZMOD p] :=
    calc ((a * modinv a p : Nat) : Int) = (euclid p p (a % p) 0 1).2 % p * a := by
          rw [Int.natCast_mul, natCast_modinv hp, mul_comm]
      _ ≡ (euclid p p (a % p) 0 1).2 * a [ZMOD p] := (Int.mod_modEq _ _).mul_right _
      _ ≡ (1 : Nat) [ZMOD p] := (Int.modEq_of_dvd hdvd).symm
  exact Nat.mod_eq_of_modEq (Int.natCast_modEq_iff.1 hmod) hp

/-- 0 is no inverse (R138). -/
theorem modinv_pos (hp : 2 ≤ p) (hgcd : Nat.gcd (a % p) p = 1) : 1 ≤ modinv a p := by
  have hinv := mul_modinv_mod hp hgcd
  by_contra hlt
  rw [Nat.lt_one_iff.1 (not_le.1 hlt), Nat.mul_zero, Nat.zero_mod] at hinv
  cases hinv

/-- Two inverses of one number are congruent, so below the modulus there is one (R138). -/
theorem inverse_unique (hx : x < p) (hy : y < p) (hax : a * x % p = 1) (hay : a * y % p = 1) : x = y := by
  have hinv : a * x ≡ a * y [MOD p] := hax.trans hay.symm
  have hmod : x ≡ y [MOD p] :=
    calc x = x * 1 := (mul_one x).symm
      _ ≡ x * (a * y) [MOD p] := (hay ▸ Nat.mod_modEq _ _ : 1 ≡ a * y [MOD p]).mul_left x
      _ = a * x * y := by ring
      _ ≡ a * y * y [MOD p] := hinv.mul_right y
      _ ≡ 1 * y [MOD p] := (hay ▸ (Nat.mod_modEq _ _).symm : a * y ≡ 1 [MOD p]).mul_right y
      _ = y := one_mul y
  exact hmod.eq_of_lt_of_lt hx hy

theorem eq_modinv (hp : 2 ≤ p) (hgcd : Nat.gcd (a % p) p = 1) (hy : y < p) (hay : a * y % p = 1) : y = modinv a p :=
  inverse_unique hy (modinv_lt hp) hay (mul_modinv_mod hp hgcd)

/-- 0 has no inverse: its gcd with the modulus is the modulus. -/
theorem mod_ne_zero_of_gcd (hp : 2 ≤ p) (hgcd : Nat.gcd (a % p) p = 1) : a % p ≠ 0 := by
  intro hzero
  rw [hzero, Nat.gcd_zero_left] at hgcd
  omega

/-- For a prime modulus whatever is not congruent to 0 is prime to it. -/
theorem coprime_of_mod_ne_zero (hp : p.Prime) (ha : a % p ≠ 0) : p.Coprime a :=
  hp.coprime_iff_not_dvd.2 fun hdvd => ha (Nat.mod_eq_zero_of_dvd hdvd)

/-- For a prime modulus Fermat's power is the inverse (R142), since `a * a^(p-2) = a^(p-1)` is congruent to 1. -/
theorem modinv_eq_pow (hp : p.Prime) (ha : a % p ≠ 0) : modinv a p = a ^ (p - 2) % p := by
  have hcop := coprime_of_mod_ne_zero hp ha
  have hexp : p - 2 + 1 = p.totient := by
    have := hp.two_le
    rw [Nat.totient_prime hp]
    omega
  have hpow : a * (a ^ (p - 2) % p) ≡ 1 [MOD p] :=
    calc a * (a ^ (p - 2) % p) ≡ a * a ^ (p - 2) [MOD p] := (Nat.mod_modEq _ _).mul_left a
      _ = a ^ p.totient := by rw [← pow_succ', hexp]
      _ ≡ 1 [MOD p] := Nat.ModEq.pow_totient hcop.symm
  have hgcd : Nat.gcd (a % p) p = 1 := (Nat.gcd_rec p a).symm.trans hcop
  exact (eq_modinv hp.two_le hgcd (Nat.mod_lt _ hp.pos) (Nat.mod_eq_of_modEq hpow hp.two_le)).symm

/-- Settles O33: the general claim is `modinv_eq_pow`; the counterexamples are evaluated. -/
theorem fermatAgreesForPrimeModuli : Obligations.FermatAgreesForPrimeModuli :=
  ⟨fun _ _ => modinv_eq_pow, by decide, by decide, by decide, by decide, by decide⟩

/-! ### Primality -/

/-- The search of R146 finds a divisor exactly of the numbers above 1 that are not prime. -/
theorem anyDivides_eq_true_iff (hp : 2 ≤ p) : anyDivides p (p - 2) 2 = true ↔ ¬ p.Prime := by
  rw [anyDivides_iff, Nat.prime_def_lt', Nat.add_sub_cancel' hp]
  simp [hp, Nat.dvd_iff_mod_eq_zero]

theorem isprime_eq (p : Nat) : isprime p = if p.Prime then 1 else 0 := by
  unfold isprime
  split
  case isTrue hle => rw [if_neg fun hprime => absurd hprime.two_le (by omega)]
  case isFalse hlt => simp only [anyDivides_eq_true_iff (not_le.1 hlt), ite_not]

/-! ### The outcomes of the commands -/

theorem checkModulus_of_le_one {k : Except CommandError Nat} (hp : p ≤ 1) : checkModulus p k = .error .domainError :=
  if_pos hp

theorem checkModulus_of_two_le {k : Except CommandError Nat} (hp : 2 ≤ p) : checkModulus p k = k :=
  if_neg (Nat.not_le.2 hp)

theorem mulinvResult_of_gcd_ne_one (hp : 2 ≤ p) (hgcd : Nat.gcd (a % p) p ≠ 1) :
    mulinvResult a p = .error .invalidInverse :=
  (checkModulus_of_two_le hp).trans (if_pos hgcd)

theorem mulinvResult_of_gcd_eq_one (hp : 2 ≤ p) (hgcd : Nat.gcd (a % p) p = 1) : mulinvResult a p = .ok (modinv a p) :=
  (checkModulus_of_two_le hp).trans (if_neg (not_not.2 hgcd))

theorem divResult_of_mod_eq_zero (hp : 2 ≤ p) (hb : b % p = 0) : divResult a b p = .error .divisionByZero :=
  (checkModulus_of_two_le hp).trans (if_pos hb)

/-- DIV passes the inverse's own error on (R143). -/
theorem divResult_of_gcd_ne_one (hp : 2 ≤ p) (hb : b % p ≠ 0) (hgcd : Nat.gcd (b % p) p ≠ 1) :
    divResult a b p = .error .invalidInverse := by
  rw [divResult, checkModulus_of_two_le hp, if_neg hb, inverseOrError, if_pos hgcd]

theorem divResult_of_gcd_eq_one (hp : 2 ≤ p) (hgcd : Nat.gcd (b % p) p = 1) :
    divResult a b p = .ok (modmul a (modinv b p) p) := by
  rw [divResult, checkModulus_of_two_le hp, if_neg (mod_ne_zero_of_gcd hp hgcd), inverseOrError,
    if_neg (not_not.2 hgcd)]

/-- The quotient of R143 times the divisor is congruent to the dividend. -/
theorem modmul_modinv_mul_mod (hp : 2 ≤ p) (hgcd : Nat.gcd (b % p) p = 1) :
    modmul a (modinv b p) p * b % p = a % p := by
  have hinv : b * modinv b p ≡ 1 [MOD p] := (mul_modinv_mod hp hgcd).trans (Nat.mod_eq_of_lt hp).symm
  calc modmul a (modinv b p) p * b ≡ a * modinv b p * b [MOD p] := (Nat.mod_modEq _ _).mul_right b
    _ = a * (b * modinv b p) := by ring
    _ ≡ a * 1 [MOD p] := hinv.mul_left a
    _ = a := mul_one a

/-- DIV by 1 (R150): 1 is its own inverse. -/
theorem divResult_one (hp : 2 ≤ p) : divResult a 1 p = .ok (a % p) := by
  have hgcd : Nat.gcd (1 % p) p = 1 := by rw [Nat.mod_eq_of_lt hp, Nat.gcd_one_left]
  have hinv : 1 = modinv 1 p := eq_modinv hp hgcd hp (Nat.mod_eq_of_lt hp)
  rw [divResult_of_gcd_eq_one hp hgcd, ← hinv, modmul, mul_one]

/-- Settles O39: each property is a lemma above, or commutativity of the naturals. -/
theorem modularFunctionsHaveTheListedProperties : Obligations.ModularFunctionsHaveTheListedProperties := by
  intro a b p hp
  refine ⟨mul_modinv_mod hp, modadd_modsub_cancel hp, ?addComm, ?mulComm, modsub_self a p, ?mulOne, divResult_one hp⟩
  case addComm => rw [modadd, modadd, Nat.add_comm]
  case mulComm => rw [modmul, modmul, Nat.mul_comm]
  case mulOne => rw [modmul, Nat.mul_one]

end Sys2Proof.Machine
end

section
/-! PROOFS of the family `41_primefield.md`, the six commands: how each ends (R130 to R148), and the turn of the busy engine, word
by word (R149). -/

namespace Sys2Proof.Machine

open Sys2Proof

variable {W : Nat} {s t : State W} {o : Result W} {r : Nat} {w : Word}

/-! ### How a PF command ends -/

/-- A result is at most the modulus, so nothing of it is cut (R131). -/
theorem toNat_pfWord {n : Nat} {p : PfWord W} (hn : n ≤ p.toNat) : (pfWord n : PfWord W).toNat = n :=
  (BitVec.toNat_ofNat ..).trans (Nat.mod_eq_of_lt (hn.trans_lt p.isLt))

/-- R36: a PF command that completes with the number `n`. -/
theorem pfEnds_of_ok {res : Except CommandError Nat} {n : Nat} (hres : res = .ok n) (hn : n ≤ s.pf.p.toNat) :
    PfEnds (.next (s.finishPf res)) s n 0x00000002#32 := by
  subst hres
  exact ⟨_, rfl, toNat_pfWord hn, s.pf.status.complete_word, rfl⟩

/-- R172, R173: a PF command that completes with the error `x`; the status reads as after any such error. -/
theorem pfEnds_of_error {res : Except CommandError Nat} {x : CommandError} (hres : res = .error x) :
    PfEnds (.next (s.finishPf res)) s 0 (Status.reset.raise x).word := by
  subst hres
  exact ⟨_, rfl, BitVec.toNat_zero, rfl, rfl⟩

theorem PfEnds.status_word (h : PfEnds o s r w) (ho : o = .next t) : t.pf.status.word = w := by
  obtain ⟨t', ho', -, hw, -⟩ := h
  cases ho.symm.trans ho'
  exact hw

theorem PfEnds.toNat_r (h : PfEnds o s r w) (ho : o = .next t) : t.pf.r.toNat = r := by
  obtain ⟨t', ho', hr, -⟩ := h
  cases ho.symm.trans ho'
  exact hr

/-! ### The modulus check -/

/-- R130: with a modulus of 0 or 1 the five commands that reduce end in `DomainError`. -/
theorem pfEnds_smallModulus {i : Instr} (hi : i = .add ∨ i = .sub ∨ i = .mul ∨ i = .mulinv ∨ i = .div)
    (hp : s.pf.p.toNat ≤ 1) : PfEnds (execAt i s) s 0 0x00000046#32 := by
  rcases hi with rfl | rfl | rfl | rfl | rfl <;> exact pfEnds_of_error (checkModulus_of_le_one hp)

/-- R133. -/
theorem pfEnds_add (hp : 2 ≤ s.pf.p.toNat) :
    PfEnds (execAt .add s) s ((s.pf.a.toNat + s.pf.b.toNat) % s.pf.p.toNat) 0x00000002#32 :=
  pfEnds_of_ok (checkModulus_of_two_le hp) (Nat.mod_lt _ (by omega)).le

/-- R135. -/
theorem pfEnds_sub (hp : 2 ≤ s.pf.p.toNat) :
    PfEnds (execAt .sub s) s (modsub s.pf.a.toNat s.pf.b.toNat s.pf.p.toNat) 0x00000002#32 :=
  pfEnds_of_ok (checkModulus_of_two_le hp) (Nat.mod_lt _ (by omega)).le

/-- R137. -/
theorem pfEnds_mul (hp : 2 ≤ s.pf.p.toNat) :
    PfEnds (execAt .mul s) s (s.pf.a.toNat * s.pf.b.toNat % s.pf.p.toNat) 0x00000002#32 :=
  pfEnds_of_ok (checkModulus_of_two_le hp) (Nat.mod_lt _ (by omega)).le

/-- R139 where there is no inverse. -/
theorem pfEnds_mulinv_error (hp : 2 ≤ s.pf.p.toNat) (hgcd : Nat.gcd (s.pf.a.toNat % s.pf.p.toNat) s.pf.p.toNat ≠ 1) :
    PfEnds (execAt .mulinv s) s 0 0x00000036#32 :=
  pfEnds_of_error (mulinvResult_of_gcd_ne_one hp hgcd)

/-- R139 where there is one. -/
theorem pfEnds_mulinv (hp : 2 ≤ s.pf.p.toNat) (hgcd : Nat.gcd (s.pf.a.toNat % s.pf.p.toNat) s.pf.p.toNat = 1) :
    PfEnds (execAt .mulinv s) s (modinv s.pf.a.toNat s.pf.p.toNat) 0x00000002#32 :=
  pfEnds_of_ok (mulinvResult_of_gcd_eq_one hp hgcd) (modinv_lt hp).le

/-- R143 with a divisor congruent to 0. -/
theorem pfEnds_div_zero (hp : 2 ≤ s.pf.p.toNat) (hb : s.pf.b.toNat % s.pf.p.toNat = 0) :
    PfEnds (execAt .div s) s 0 0x00000026#32 :=
  pfEnds_of_error (divResult_of_mod_eq_zero hp hb)

/-- R143 with another divisor that has no inverse. -/
theorem pfEnds_div_error (hp : 2 ≤ s.pf.p.toNat) (hb : s.pf.b.toNat % s.pf.p.toNat ≠ 0)
    (hgcd : Nat.gcd (s.pf.b.toNat % s.pf.p.toNat) s.pf.p.toNat ≠ 1) : PfEnds (execAt .div s) s 0 0x00000036#32 :=
  pfEnds_of_error (divResult_of_gcd_ne_one hp hb hgcd)

/-- R143 with a divisor that has an inverse. -/
theorem pfEnds_div (hp : 2 ≤ s.pf.p.toNat) (hgcd : Nat.gcd (s.pf.b.toNat % s.pf.p.toNat) s.pf.p.toNat = 1) :
    PfEnds (execAt .div s) s (s.pf.a.toNat * modinv s.pf.b.toNat s.pf.p.toNat % s.pf.p.toNat) 0x00000002#32 :=
  pfEnds_of_ok (divResult_of_gcd_eq_one hp hgcd) (Nat.mod_lt _ (by omega)).le

/-- R148: ISPRIME, at every modulus. -/
theorem pfEnds_isprime (s : State W) :
    PfEnds (execAt .isprime s) s (if s.pf.p.toNat.Prime then 1 else 0) 0x00000002#32 := by
  refine pfEnds_of_ok (congrArg _ (isprime_eq _)) ?_
  split
  case isTrue hprime => exact hprime.one_le
  case isFalse => exact Nat.zero_le _

/-- With a modulus of at least 2 no PF command ends in `DomainError` (R130). -/
theorem exists_pfEnds_of_two_le {i : Instr} (hi : i.engine = .pf) (hp : 2 ≤ s.pf.p.toNat) :
    ∃ r w, PfEnds (execAt i s) s r w ∧ w ≠ 0x00000046#32 := by
  cases i with
  | xtime | genrcon | rotword => cases hi
  | add => exact ⟨_, _, pfEnds_add hp, by decide⟩
  | sub => exact ⟨_, _, pfEnds_sub hp, by decide⟩
  | mul => exact ⟨_, _, pfEnds_mul hp, by decide⟩
  | mulinv =>
    by_cases hgcd : Nat.gcd (s.pf.a.toNat % s.pf.p.toNat) s.pf.p.toNat = 1
    · exact ⟨_, _, pfEnds_mulinv hp hgcd, by decide⟩
    · exact ⟨_, _, pfEnds_mulinv_error hp hgcd, by decide⟩
  | div =>
    by_cases hb : s.pf.b.toNat % s.pf.p.toNat = 0
    · exact ⟨_, _, pfEnds_div_zero hp hb, by decide⟩
    by_cases hgcd : Nat.gcd (s.pf.b.toNat % s.pf.p.toNat) s.pf.p.toNat = 1
    · exact ⟨_, _, pfEnds_div hp hgcd, by decide⟩
    · exact ⟨_, _, pfEnds_div_error hp hb hgcd, by decide⟩
  | isprime => exact ⟨_, _, pfEnds_isprime s, by decide⟩

/-- Settles O27: `pfEnds_smallModulus` at most 1, `exists_pfEnds_of_two_le` above; 0 and 1 are not prime. -/
theorem smallModulusIsADomainError : Obligations.SmallModulusIsADomainError := by
  refine AtEveryWidth.of_execAt fun W _ => ⟨fun i s hi hp => pfEnds_smallModulus hi hp, fun s hp => ?isprime, ?large⟩
  case isprime =>
    have hends := pfEnds_isprime s
    rwa [if_neg fun hprime => absurd hprime.two_le (by omega)] at hends
  case large =>
    intro i s t hi hp ht
    obtain ⟨r, w, hends, hw⟩ := exists_pfEnds_of_two_le hi hp
    rwa [hends.status_word ht]

/-- Settles O28 by `pfEnds_add`. -/
theorem addGivesTheSumModP : Obligations.AddGivesTheSumModP :=
  AtEveryWidth.of_execAt fun _ _ => ⟨rfl, fun _ => ⟨pfEnds_smallModulus (by simp), pfEnds_add⟩⟩

/-- Settles O29: the forms of R134 are equal to `modsub`. -/
theorem subGivesTheLeastResidue : Obligations.SubGivesTheLeastResidue := by
  refine AtEveryWidth.of_execAt fun W _ => ⟨rfl, fun s => ⟨pfEnds_smallModulus (by simp), fun hp => ⟨?integer, pfEnds_sub hp⟩,
    fun hp hb => ?source⟩⟩
  case integer =>
    rw [← natCast_modsub hp, Int.toNat_natCast]
    exact pfEnds_sub hp
  case source =>
    rw [sourceSub_eq_modsub hp hb]
    exact pfEnds_sub hp

/-- Settles O30 by `pfEnds_mul`. -/
theorem mulGivesTheProductModP : Obligations.MulGivesTheProductModP :=
  AtEveryWidth.of_execAt fun _ _ => ⟨rfl, fun _ => ⟨pfEnds_smallModulus (by simp), pfEnds_mul⟩⟩

/-- Settles O31: the inverse is `modinv`, and `eq_modinv` says it is the only one. -/
theorem mulinvGivesTheInverse : Obligations.MulinvGivesTheInverse := by
  refine AtEveryWidth.of_execAt fun W _ => ⟨rfl, fun s => ⟨pfEnds_smallModulus (by simp), pfEnds_mulinv_error, fun hp hgcd =>
    ⟨_, pfEnds_mulinv hp hgcd, ?pos, modinv_lt hp, mul_modinv_mod hp hgcd, fun y => eq_modinv hp hgcd⟩⟩⟩
  exact modinv_pos hp hgcd

/-- Settles O34: one lemma for each way DIV ends; the quotient times the divisor by `modmul_modinv_mul_mod`. -/
theorem divGivesTheFieldQuotient : Obligations.DivGivesTheFieldQuotient :=
  AtEveryWidth.of_execAt fun _ _ => ⟨rfl, fun _ => ⟨pfEnds_smallModulus (by simp), pfEnds_div_zero, pfEnds_div_error,
    fun hp hgcd => ⟨_, _, pfEnds_div hp hgcd, modinv_lt hp, mul_modinv_mod hp hgcd, rfl, modmul_modinv_mul_mod hp hgcd⟩⟩⟩

/-- Where DIV completes without error the divisor has an inverse (R143). -/
theorem gcd_eq_one_of_div_completes (ht : execAt .div s = .next t) (hw : t.pf.status.word = 0x00000002#32) :
    2 ≤ s.pf.p.toNat ∧ Nat.gcd (s.pf.b.toNat % s.pf.p.toNat) s.pf.p.toNat = 1 := by
  have hends {r : Nat} {w : Word} (h : PfEnds (execAt .div s) s r w) : 0x00000002#32 = w := hw.symm.trans (h.status_word ht)
  by_cases hp : 2 ≤ s.pf.p.toNat
  case neg => cases hends (pfEnds_smallModulus (by simp) (by omega))
  by_cases hb : s.pf.b.toNat % s.pf.p.toNat = 0
  case pos => cases hends (pfEnds_div_zero hp hb)
  by_cases hgcd : Nat.gcd (s.pf.b.toNat % s.pf.p.toNat) s.pf.p.toNat = 1
  case neg => cases hends (pfEnds_div_error hp hb hgcd)
  exact ⟨hp, hgcd⟩

/-- Settles O35: both ways give `a` times `modinv b p`, reduced. -/
theorem divIsMulinvThenMul : Obligations.DivIsMulinvThenMul := by
  refine AtEveryWidth.of_execAt fun W _ => ⟨?completes, ?zero⟩
  case completes =>
    intro s t ht hw
    obtain ⟨hp, hgcd⟩ := gcd_eq_one_of_div_completes ht hw
    obtain ⟨u, hu, hur, huw, -⟩ := pfEnds_mulinv (s := { s with pf := { s.pf with a := s.pf.b } }) hp hgcd
    obtain ⟨v, hv, hvr, hvw, -⟩ := pfEnds_mul (s := { s with pf := { s.pf with b := u.pf.r } }) hp
    refine ⟨u, v, hu, huw, hv, hvw, BitVec.eq_of_toNat_eq ?_⟩
    rw [hvr, hur, (pfEnds_div hp hgcd).toNat_r ht]
  case zero =>
    intro s t u hp hb ht hu
    have hgcd : Nat.gcd (s.pf.b.toNat % s.pf.p.toNat) s.pf.p.toNat ≠ 1 := fun h => mod_ne_zero_of_gcd hp h hb
    have hmulinv := pfEnds_mulinv_error (s := { s with pf := { s.pf with a := s.pf.b } }) hp hgcd
    exact ⟨(pfEnds_div_zero hp hb).status_word ht, hmulinv.status_word hu⟩

/-- Settles O36 by `pfEnds_isprime`. -/
theorem isprimeTellsPrimes : Obligations.IsprimeTellsPrimes := by
  refine AtEveryWidth.of_execAt fun W _ => ⟨rfl, fun s hprime => ?prime, fun s hprime => ?notPrime⟩
  case prime => simpa only [if_pos hprime] using pfEnds_isprime s
  case notPrime => simpa only [if_neg hprime] using pfEnds_isprime s

/-! ### The turn of the busy engine -/

/-- A row of R149 with an error: `PF_R` is zeroed. -/
theorem PfEnds.errorRow (h : PfEnds o s 0 w) : ∃ t, o = .next t ∧ t.gf = s.gf ∧ t.hosts = s.hosts ∧ t.events = s.events ∧
    t.tick = s.tick ∧ t.pf.cmd = s.pf.cmd ∧ t.pf.a = s.pf.a ∧ t.pf.b = s.pf.b ∧ t.pf.p = s.pf.p ∧
    t.pf.r = 0 ∧ t.pf.status.word = w := by
  obtain ⟨t, ho, hr, hw, hframe⟩ := h
  have hzero : t.pf.r = 0 := BitVec.eq_of_toNat_eq (hr.trans BitVec.toNat_zero.symm)
  refine ⟨t, ho, ?_⟩
  rw [hframe]
  exact ⟨rfl, rfl, rfl, rfl, rfl, rfl, rfl, rfl, hzero, hw⟩

/-- The value the last rows of R149 give for the word `c`: `r`, from the operands `a`, `b`, `p`. -/
def PfRowValue (c : Word) (a b p r : Nat) : Prop :=
  (c = 0x00000010#32 → r = (a + b) % p) ∧
  (c = 0x00000011#32 → (r : Int) = ((a : Int) - (b : Int)) % (p : Int)) ∧
  (c = 0x00000012#32 → r = a * b % p) ∧
  (c = 0x00000013#32 → r < p ∧ a * r % p = 1) ∧
  (c = 0x00000014#32 → ∃ x, x < p ∧ b * x % p = 1 ∧ r = a * x % p) ∧
  (c = 0x00000015#32 → (Nat.Prime p → r = 1) ∧ (¬ Nat.Prime p → r = 0))

section
variable {c : Word} {a b p : Nat}

theorem pfRowValue_add (hc : c = 0x00000010#32) : PfRowValue c a b p ((a + b) % p) := by
  simp [PfRowValue, hc]

theorem pfRowValue_sub (hc : c = 0x00000011#32) (hp : 2 ≤ p) : PfRowValue c a b p (modsub a b p) := by
  simp [PfRowValue, hc, natCast_modsub hp]

theorem pfRowValue_mul (hc : c = 0x00000012#32) : PfRowValue c a b p (a * b % p) := by
  simp [PfRowValue, hc]

theorem pfRowValue_mulinv (hc : c = 0x00000013#32) (hp : 2 ≤ p) (hgcd : Nat.gcd (a % p) p = 1) :
    PfRowValue c a b p (modinv a p) := by
  simp [PfRowValue, hc, modinv_lt hp, mul_modinv_mod hp hgcd]

theorem pfRowValue_div (hc : c = 0x00000014#32) (hp : 2 ≤ p) (hgcd : Nat.gcd (b % p) p = 1) :
    PfRowValue c a b p (a * modinv b p % p) := by
  have hvalue : ∃ x, x < p ∧ b * x % p = 1 ∧ a * modinv b p % p = a * x % p :=
    ⟨_, modinv_lt hp, mul_modinv_mod hp hgcd, rfl⟩
  simp [PfRowValue, hc, hvalue]

theorem pfRowValue_isprime (hc : c = 0x00000015#32) : PfRowValue c a b p (if p.Prime then 1 else 0) := by
  simp [PfRowValue, hc]

end

/-- A row of R149 without error. -/
theorem PfEnds.valueRow {c : Word} {a b p : Nat} (h : PfEnds o s r w) (hvalue : PfRowValue c a b p r) :
    ∃ t, o = .next t ∧ t.gf = s.gf ∧ t.hosts = s.hosts ∧ t.events = s.events ∧
      t.tick = s.tick ∧ t.pf.cmd = s.pf.cmd ∧ t.pf.a = s.pf.a ∧ t.pf.b = s.pf.b ∧ t.pf.p = s.pf.p ∧
      t.pf.status.word = w ∧ PfRowValue c a b p t.pf.r.toNat := by
  obtain ⟨t, ho, rfl, hw, hframe⟩ := h
  refine ⟨t, ho, ?_⟩
  rw [hframe]
  exact ⟨rfl, rfl, rfl, rfl, rfl, rfl, rfl, rfl, hw, hvalue⟩

/-- The PF commands are the five that reduce (R130) and ISPRIME. -/
theorem reduces_of_ne_isprime {i : Instr} (hi : i.engine = .pf) (hne : i ≠ .isprime) :
    i = .add ∨ i = .sub ∨ i = .mul ∨ i = .mulinv ∨ i = .div := by
  cases i with
  | xtime | genrcon | rotword => cases hi
  | isprime => exact absurd rfl hne
  | _ => simp

/-- Settles O38: one case per row of R149, each the end of the command that the word decodes to. -/
theorem pfOutcomesAreTheTable : Obligations.PfOutcomesAreTheTable := by
  refine AtEveryWidth.of_execAt fun W _ s evs hev hbusy => ?_
  dsimp only
  have hcommand {i : Instr} {r : Nat} {w : Word} (hword : decode .pf s.pf.cmd = .ok i)
      (hends : PfEnds (execAt i { s with events := evs }) { s with events := evs } r w) :
      PfEnds (stepAt s) { s with events := evs } r w := by
    rwa [stepAt_command hev hbusy hword]
  have haccepts : (∃ i, decode .pf s.pf.cmd = .ok i) ↔ ¬ (s.pf.cmd < 0x00000010#32 ∨ 0x00000015#32 < s.pf.cmd) := by
    rw [pf_accepts_iff, not_or, BitVec.not_lt, BitVec.not_lt]
  have two_le (hsmall : ¬ (s.pf.cmd ≠ 0x00000015#32 ∧ s.pf.p.toNat ≤ 1)) {i : Instr} (hc : s.pf.cmd = encode i)
      (hne : encode i ≠ 0x00000015#32) : 2 ≤ s.pf.p.toNat := by
    by_contra hlt
    exact hsmall ⟨hc ▸ hne, by omega⟩
  split_ifs with hillegal hsmall hzero hdiv hmulinv
  -- a word that is no command
  · obtain ⟨x, hword⟩ : ∃ x, decode .pf s.pf.cmd = .error x := by
      rwa [exists_decode_eq_error_iff, haccepts, not_not]
    exact ⟨_, stepAt_illegal hev hbusy hword, rfl, rfl, rfl, rfl, rfl, rfl, rfl, rfl, rfl,
      s.pf.status.raise_word .illegalCommand⟩
  -- the modulus is 0 or 1, and the command is one that reduces
  · obtain ⟨i, hword⟩ := haccepts.2 hillegal
    obtain ⟨hne, hp⟩ := hsmall
    have hi : i ≠ .isprime := by
      rintro rfl
      exact hne ((decode_own_iff .isprime).1 hword)
    exact (hcommand hword (pfEnds_smallModulus (reduces_of_ne_isprime (decode_eq_ok_iff.1 hword).1 hi) hp)).errorRow
  -- DIV, the divisor congruent to 0
  · have hp := two_le hsmall (i := .div) hzero.1 (by decide)
    exact (hcommand ((decode_own_iff .div).2 hzero.1) (pfEnds_div_zero hp hzero.2)).errorRow
  -- DIV, another divisor with no inverse
  · have hp := two_le hsmall (i := .div) hdiv.1 (by decide)
    have hb : s.pf.b.toNat % s.pf.p.toNat ≠ 0 := fun hb => hzero ⟨hdiv.1, hb⟩
    exact (hcommand ((decode_own_iff .div).2 hdiv.1) (pfEnds_div_error hp hb hdiv.2)).errorRow
  -- MULINV, no inverse
  · have hp := two_le hsmall (i := .mulinv) hmulinv.1 (by decide)
    exact (hcommand ((decode_own_iff .mulinv).2 hmulinv.1) (pfEnds_mulinv_error hp hmulinv.2)).errorRow
  -- the rows without error, one per command
  · obtain ⟨i, hword⟩ := haccepts.2 hillegal
    have hc := (decode_eq_ok_iff.1 hword).2
    cases i with
    | xtime | genrcon | rotword => cases (decode_eq_ok_iff.1 hword).1
    | add =>
      have hp := two_le hsmall hc (by decide)
      exact (hcommand hword (pfEnds_add hp)).valueRow (pfRowValue_add hc)
    | sub =>
      have hp := two_le hsmall hc (by decide)
      exact (hcommand hword (pfEnds_sub hp)).valueRow (pfRowValue_sub hc hp)
    | mul =>
      have hp := two_le hsmall hc (by decide)
      exact (hcommand hword (pfEnds_mul hp)).valueRow (pfRowValue_mul hc)
    | mulinv =>
      have hp := two_le hsmall hc (by decide)
      have hgcd := not_not.1 fun h => hmulinv ⟨hc, h⟩
      exact (hcommand hword (pfEnds_mulinv hp hgcd)).valueRow (pfRowValue_mulinv hc hp hgcd)
    | div =>
      have hp := two_le hsmall hc (by decide)
      have hgcd := not_not.1 fun h => hdiv ⟨hc, h⟩
      exact (hcommand hword (pfEnds_div hp hgcd)).valueRow (pfRowValue_div hc hp hgcd)
    | isprime => exact (hcommand hword (pfEnds_isprime _)).valueRow (pfRowValue_isprime hc)

end Sys2Proof.Machine
end

section
/-! PROOFS of the family `other`, encoding: decoding is the inverse of encoding (R80, R85), and the opcode table alone decides
(R84, R92). The table has one row per command, so what a row covers is asked of the row of a command. -/

namespace Sys2Proof

/-- Settles O2: decoding gives the command whose fields the word has (`decode_eq_ok_iff`). -/
theorem decodeIsTheInverseOfEncode : Obligations.DecodeIsTheInverseOfEncode := fun _ _ _ => decode_eq_ok_iff

/-! ### The opcode table -/

/-- Every row's mask covers `OPC`, so a word that matches a row has the row's opcode. -/
theorem opcField_of_matches {r : OpcodeRow} (hr : r ∈ opcodeTable) {c : Word} (hc : c &&& r.mask = r.pattern) :
    opcField c = opcField r.pattern := by
  have hmask : ∀ r ∈ opcodeTable, opcField r.mask = 0xFF#8 := by decide
  have hand : opcField (c &&& r.mask) = opcField c &&& opcField r.mask := BitVec.extractLsb'_and ..
  calc opcField c = opcField c &&& opcField r.mask := by rw [hmask r hr]; exact BitVec.and_allOnes.symm
    _ = opcField r.pattern := by rw [← hand, hc]

/-- No two rows have one opcode (R84). -/
theorem row_eq_of_opcField_eq : ∀ r ∈ opcodeTable, ∀ q ∈ opcodeTable, opcField r.pattern = opcField q.pattern → r = q := by
  decide

/-- The row of a command: its word under a mask that covers all of it but the count of GENRCON. -/
def Instr.row (i : Instr) : OpcodeRow :=
  match i with
  | .genrcon _ => ⟨"GENRCON", .gf, 0xFFFF00FF#32, 0x00000002#32⟩
  | i => ⟨i.mnemonic, i.engine, 0xFFFFFFFF#32, encode i⟩

theorem Instr.row_mem (i : Instr) : i.row ∈ opcodeTable := by
  cases i with
  | genrcon count => exact (by decide : (Instr.genrcon 0).row ∈ opcodeTable)
  | _ => decide

theorem Instr.row_mnemonic (i : Instr) : i.row.mnemonic = i.mnemonic := by
  cases i <;> rfl

theorem exists_row_eq : ∀ r ∈ opcodeTable,
    ∃ i ∈ [Instr.xtime, .genrcon 0, .rotword, .add, .sub, .mul, .mulinv, .div, .isprime], i.row = r := by
  decide

theorem OpcodeRow.covers_iff {r : OpcodeRow} {e : Engine} {c : Word} :
    r.covers e c = true ↔ r.engine = e ∧ c &&& r.mask = r.pattern := by
  simp [OpcodeRow.covers]

/-- A row whose mask is full covers the one word it holds. -/
theorem covers_fullMask_iff {m : String} {e e' : Engine} {w c : Word} :
    OpcodeRow.covers ⟨m, e', 0xFFFFFFFF#32, w⟩ e c = true ↔ e' = e ∧ c = w := by
  have hmask : c &&& 0xFFFFFFFF#32 = c := BitVec.and_allOnes
  simp [OpcodeRow.covers, hmask]

/-- A word that the row of a command covers decodes to a command of its name: GENRCON with any count, or the command itself. -/
theorem decode_of_row_covers {i : Instr} {e : Engine} {c : Word} (h : i.row.covers e c = true) :
    ∃ j, decode e c = .ok j ∧ j.mnemonic = i.mnemonic := by
  cases i with
  | genrcon n =>
    obtain ⟨rfl, hc⟩ := OpcodeRow.covers_iff.1 h
    exact ⟨_, decode_genrcon_iff.2 ⟨hc, rfl⟩, rfl⟩
  | _ => exact ⟨_, decode_eq_ok_iff.2 (covers_fullMask_iff.1 h), rfl⟩

/-- A word that decodes to a command is covered by the command's row. -/
theorem row_covers_of_decode {i : Instr} {e : Engine} {c : Word} (h : decode e c = .ok i) : i.row.covers e c = true := by
  cases i with
  | genrcon n =>
    obtain ⟨rfl, -⟩ := decode_eq_ok_iff.1 h
    exact OpcodeRow.covers_iff.2 ⟨rfl, (decode_genrcon_iff.1 h).1⟩
  | _ => exact covers_fullMask_iff.2 (decode_eq_ok_iff.1 h)

/-- Settles O4: the rows are disjoint by their opcodes, and a row is that of a command. -/
theorem opcodeTableDecides : Obligations.OpcodeTableDecides := by
  refine ⟨fun c r hr q hq hrc hqc => ?disjoint, fun e c r hr hcovers => ?decoded, fun e c i hi => ?covered⟩
  case disjoint =>
    exact row_eq_of_opcField_eq r hr q hq ((opcField_of_matches hr hrc).symm.trans (opcField_of_matches hq hqc))
  case decoded =>
    obtain ⟨i, -, rfl⟩ := exists_row_eq r hr
    rw [i.row_mnemonic]
    exact decode_of_row_covers hcovers
  case covered =>
    exact ⟨i.row, i.row_mem, row_covers_of_decode hi, i.row_mnemonic⟩

end Sys2Proof
end

section
/-! PROOFS of the family `other`, completions: what a command's completion and an engine's turn write, as functions of the engine's
own bank (R36, R38, R172), and what the frames, the errors and the purity of the outcomes owe to that. -/

namespace Sys2Proof.Machine

open Sys2Proof

variable {W : Nat} {s t : State W} {e : Engine} {i : Instr}

/-! ### Completions as functions of a bank -/

/-- The GF bank after the completion of a GF command in it (R101, R105, R109). No other command completes there. -/
def GfBank.completed (g : GfBank) : Instr → GfBank
  | .xtime =>
    match octetOperand g.input with
    | none => { g with out := 0, status := g.status.raise .invalidInput }
    | some v => { g with out := (xtime v).setWidth 32, status := g.status.complete }
  | .genrcon n =>
    { g with
      rclen := n, rcbuf := genrconBuffer n
      status := if n.toNat < 1 then g.status.raise .invalidInput else g.status.complete }
  | .rotword => { g with out := rotword g.input, status := g.status.complete }
  | _ => g

/-- What a PF command computes from its operands (R133 to R148). On the PF engine a GF command is no command. -/
def pfOutcome : Instr → (a b p : Nat) → Except CommandError Nat
  | .add, a, b, p => addResult a b p
  | .sub, a, b, p => subResult a b p
  | .mul, a, b, p => mulResult a b p
  | .mulinv, a, _, p => mulinvResult a p
  | .div, a, b, p => divResult a b p
  | .isprime, _, _, p => .ok (isprime p)
  | _, _, _, _ => .error .illegalCommand

/-- The PF bank with an outcome written: the number, or the error with `PF_R` zeroed (R36, R172, R173). -/
def PfBank.finish (q : PfBank W) : Except CommandError Nat → PfBank W
  | .ok n => { q with r := pfWord n, status := q.status.complete }
  | .error x => { q with r := 0, status := q.status.raise x }

/-- The PF bank after the completion of a PF command in it. -/
def PfBank.completed (q : PfBank W) (i : Instr) : PfBank W := q.finish (pfOutcome i q.a.toNat q.b.toNat q.p.toNat)

/-- A GF command's completion changes the GF bank alone, and by what that bank holds. -/
theorem execAt_gf (hi : i.engine = .gf) (s : State W) : execAt i s = .next { s with gf := s.gf.completed i } := by
  cases i with
  | xtime => rw [execAt_xtime, GfBank.completed]; cases octetOperand s.gf.input <;> rfl
  | genrcon n =>
    obtain hn | hn : n.toNat < 1 ∨ 1 ≤ n.toNat := by omega
    · obtain rfl : n = 0 := BitVec.eq_of_toNat_eq (by simpa using hn)
      exact execAt_genrcon 0 s
    · rw [execAt_genrcon_of_pos hn, GfBank.completed, genrconBuffer, if_neg (by omega), if_neg (by omega)]
  | rotword => rfl
  | _ => cases hi

/-- A PF command's completion changes the PF bank alone, and by what that bank holds. -/
theorem execAt_pf (hi : i.engine = .pf) (s : State W) : execAt i s = .next { s with pf := s.pf.completed i } := by
  have hfinish (res : Except CommandError Nat) : s.finishPf res = { s with pf := s.pf.finish res } := by
    cases res <;> rfl
  cases i with
  | xtime | genrcon | rotword => cases hi
  | _ => exact congrArg Host.Outcome.next (hfinish _)

theorem eq_completed_of_gf (hi : i.engine = .gf) (ht : execAt i s = .next t) : t = { s with gf := s.gf.completed i } :=
  Host.Outcome.next.inj (ht.symm.trans (execAt_gf hi s))

theorem eq_completed_of_pf (hi : i.engine = .pf) (ht : execAt i s = .next t) : t = { s with pf := s.pf.completed i } :=
  Host.Outcome.next.inj (ht.symm.trans (execAt_pf hi s))

/-! ### Frames -/

theorem GfBank.completed_operands (g : GfBank) (i : Instr) :
    (g.completed i).cmd = g.cmd ∧ (g.completed i).input = g.input := by
  cases i with
  | xtime => rw [GfBank.completed]; split <;> exact ⟨rfl, rfl⟩
  | _ => exact ⟨rfl, rfl⟩

/-- Only GENRCON writes the buffer and its length (R29, R30). -/
theorem GfBank.completed_buffer (g : GfBank) (hi : ∀ n, i ≠ .genrcon n) :
    (g.completed i).rclen = g.rclen ∧ (g.completed i).rcbuf = g.rcbuf := by
  cases i with
  | xtime => rw [GfBank.completed]; split <;> exact ⟨rfl, rfl⟩
  | genrcon n => exact absurd rfl (hi n)
  | _ => exact ⟨rfl, rfl⟩

/-- Settles O42: the completion is `GfBank.completed`. -/
theorem gfCommandsLeaveTheRest : Obligations.GfCommandsLeaveTheRest := by
  refine AtEveryWidth.of_execAt fun W _ i s t hi ht => ?_
  obtain rfl := eq_completed_of_gf hi ht
  obtain ⟨hcmd, hinput⟩ := s.gf.completed_operands i
  refine ⟨rfl, hcmd, hinput, rfl, rfl, rfl, fun hout => ?buffer, fun n hn => ?out⟩
  case buffer =>
    obtain ⟨hlen, hbuf⟩ := s.gf.completed_buffer (i := i) (by rintro n rfl; simp at hout)
    exact ⟨hlen, fun j => congrArg (Memory.read · j) hbuf⟩
  case out => subst hn; rfl

theorem PfBank.completed_operands (q : PfBank W) (i : Instr) : (q.completed i).cmd = q.cmd ∧ (q.completed i).a = q.a ∧
    (q.completed i).b = q.b ∧ (q.completed i).p = q.p := by
  unfold PfBank.completed
  cases pfOutcome i q.a.toNat q.b.toNat q.p.toNat <;> exact ⟨rfl, rfl, rfl, rfl⟩

/-- Settles O43: the completion is `PfBank.completed`. -/
theorem pfCommandsLeaveTheRest : Obligations.PfCommandsLeaveTheRest := by
  refine AtEveryWidth.of_execAt fun W _ i s t hi ht => ?_
  obtain rfl := eq_completed_of_pf hi ht
  obtain ⟨hcmd, ha, hb, hp⟩ := s.pf.completed_operands i
  exact ⟨rfl, fun _ => rfl, hcmd, ha, hb, hp, rfl, rfl, rfl⟩

/-! ### Purity -/

/-- ISPRIME reads `p` alone and MULINV does not read `b` (R23). -/
theorem pfOutcome_congr {a a' b b' p : Nat} (ha : i ≠ .isprime → a = a') (hb : i ≠ .isprime → i ≠ .mulinv → b = b') :
    pfOutcome i a b p = pfOutcome i a' b' p := by
  cases i with
  | isprime => rfl
  | mulinv => rw [ha nofun]; rfl
  | _ => rw [ha nofun, hb nofun nofun]

/-- The result and the status are the outcome's, whatever stood in the bank. -/
theorem PfBank.finish_congr (q q' : PfBank W) (res : Except CommandError Nat) :
    (q.finish res).r = (q'.finish res).r ∧ (q.finish res).status = (q'.finish res).status := by
  cases res <;> exact ⟨rfl, rfl⟩

/-- The GF commands are the two that read `GF_IN` and GENRCON, which reads no register (R21). -/
theorem reads_input_or_genrcon (hi : i.engine = .gf) : (i = .xtime ∨ i = .rotword) ∨ ∃ n, i = .genrcon n := by
  cases i with
  | xtime => exact .inl (.inl rfl)
  | rotword => exact .inl (.inr rfl)
  | genrcon n => exact .inr ⟨n, rfl⟩
  | _ => cases hi

/-- XTIME and ROTWORD read `GF_IN` alone (R21). -/
theorem GfBank.completed_congr {g g' : GfBank} (hi : i = .xtime ∨ i = .rotword) (hinput : g.input = g'.input) :
    (g.completed i).status = (g'.completed i).status ∧ (g.completed i).out = (g'.completed i).out := by
  obtain rfl | rfl := hi
  · simp only [GfBank.completed, hinput]
    split <;> exact ⟨rfl, rfl⟩
  · exact ⟨rfl, congrArg rotword hinput⟩

/-- Settles O44: a completion writes what `pfOutcome`, or the input of a GF command, says. -/
theorem outcomeDependsOnReadOperandsOnly : Obligations.OutcomeDependsOnReadOperandsOnly := by
  refine AtEveryWidth.of_execAt fun W _ => ⟨fun i s s' t t' hi ht ht' ha hb hp => ?pf, fun i s s' t t' hi ht ht' hinput => ?gf⟩
  case pf =>
    obtain rfl := eq_completed_of_pf hi ht
    obtain rfl := eq_completed_of_pf hi ht'
    have hres : pfOutcome i s.pf.a.toNat s.pf.b.toNat s.pf.p.toNat = pfOutcome i s'.pf.a.toNat s'.pf.b.toNat s'.pf.p.toNat := by
      rw [hp]
      exact pfOutcome_congr (fun h => congrArg _ (ha h)) (fun h h' => congrArg _ (hb h h'))
    simp only [PfBank.completed, hres]
    exact s.pf.finish_congr s'.pf _
  case gf =>
    obtain rfl := eq_completed_of_gf hi ht
    obtain rfl := eq_completed_of_gf hi ht'
    obtain hreads | ⟨n, rfl⟩ := reads_input_or_genrcon hi
    · obtain ⟨hstatus, hout⟩ := GfBank.completed_congr hreads (hinput hreads)
      exact ⟨hstatus, fun _ => hout, by rintro n rfl; simp at hreads⟩
    · exact ⟨rfl, by simp, fun _ _ => ⟨rfl, rfl⟩⟩

/-! ### Results and errors -/

/-- R131: a result is below the modulus. -/
theorem pfOutcome_lt {a b p n : Nat} (hp : 2 ≤ p) (h : pfOutcome i a b p = .ok n) : n < p := by
  have hpos : 0 < p := by omega
  cases i with
  | xtime | genrcon | rotword => cases h
  | add | sub | mul => cases (checkModulus_of_two_le hp).symm.trans h; exact Nat.mod_lt _ hpos
  | mulinv =>
    by_cases hgcd : Nat.gcd (a % p) p = 1
    · cases (mulinvResult_of_gcd_eq_one hp hgcd).symm.trans h; exact modinv_lt hp
    · cases (mulinvResult_of_gcd_ne_one hp hgcd).symm.trans h
  | div =>
    by_cases hb : b % p = 0
    · cases (divResult_of_mod_eq_zero hp hb).symm.trans h
    by_cases hgcd : Nat.gcd (b % p) p = 1
    · cases (divResult_of_gcd_eq_one hp hgcd).symm.trans h; exact Nat.mod_lt _ hpos
    · cases (divResult_of_gcd_ne_one hp hb hgcd).symm.trans h
  | isprime =>
    have hle : isprime p ≤ 1 := by rw [isprime_eq]; split <;> omega
    cases h
    omega

/-- Settles O40: a result is below the modulus and is not cut, and an error leaves 0. -/
theorem resultsAreBelowTheModulus : Obligations.ResultsAreBelowTheModulus := by
  refine AtEveryWidth.of_execAt fun W _ i s t hi hp ht => ?_
  obtain rfl := eq_completed_of_pf hi ht
  show (s.pf.completed i).r.toNat < s.pf.p.toNat
  unfold PfBank.completed
  cases hres : pfOutcome i s.pf.a.toNat s.pf.b.toNat s.pf.p.toNat with
  | ok n =>
    have hn := pfOutcome_lt hp hres
    exact (toNat_pfWord hn.le).trans_lt hn
  | error x => exact BitVec.toNat_zero.trans_lt (by omega)

/-- The errors a command can complete with (R111, R149, R170). -/
def commandErrors : Instr → List CommandError
  | .xtime | .genrcon _ => [.invalidInput]
  | .rotword | .isprime => []
  | .add | .sub | .mul => [.domainError]
  | .mulinv => [.domainError, .invalidInverse]
  | .div => [.domainError, .divisionByZero, .invalidInverse]

theorem eq_domainError_or_of_checkModulus {p : Nat} {k : Except CommandError Nat} {x : CommandError}
    (h : checkModulus p k = .error x) : x = .domainError ∨ k = .error x := by
  unfold checkModulus at h
  split at h
  · cases h; exact .inl rfl
  · exact .inr h

theorem eq_invalidInverse_of_inverseOrError {a p : Nat} {x : CommandError} (h : inverseOrError a p = .error x) :
    x = .invalidInverse := by
  unfold inverseOrError at h
  split at h <;> cases h
  rfl

theorem mem_commandErrors_of_pfOutcome (hi : i.engine = .pf) {a b p : Nat} {x : CommandError} (h : pfOutcome i a b p = .error x) :
    x ∈ commandErrors i := by
  cases i with
  | xtime | genrcon | rotword => cases hi
  | isprime => cases h
  | add | sub | mul =>
    obtain rfl | h := eq_domainError_or_of_checkModulus h
    · simp [commandErrors]
    · cases h
  | mulinv =>
    obtain rfl | h := eq_domainError_or_of_checkModulus h
    · simp [commandErrors]
    · simp [commandErrors, eq_invalidInverse_of_inverseOrError h]
  | div =>
    obtain rfl | h := eq_domainError_or_of_checkModulus h
    · simp [commandErrors]
    split at h
    · cases h; simp [commandErrors]
    split at h
    · rename_i hinv; cases h; simp [commandErrors, eq_invalidInverse_of_inverseOrError hinv]
    · cases h

/-- R173: the output registers of a command hold zero. -/
def State.OutputsZero (t : State W) (i : Instr) : Prop :=
  (i = .xtime → t.gf.out = 0) ∧ (∀ n, i = .genrcon n → t.gf.rclen = 0 ∧ ∀ j, t.gf.rcbuf.read j = 0) ∧
  (i.engine = .pf → t.pf.r = 0)

/-- A completion ends without error (R36), or with one of the command's errors and its outputs zeroed (R172, R173). -/
theorem status_execAt (ht : execAt i s = .next t) :
    t.status i.engine = (s.status i.engine).complete ∨
    ∃ x ∈ commandErrors i, t.status i.engine = (s.status i.engine).raise x ∧ t.OutputsZero i := by
  cases he : i.engine with
  | gf =>
    obtain rfl := eq_completed_of_gf he ht
    cases i with
    | xtime =>
      simp only [State.status_gf, State.OutputsZero, GfBank.completed]
      cases octetOperand s.gf.input with
      | none => exact .inr ⟨_, .head _, rfl, fun _ => rfl, nofun, nofun⟩
      | some v => exact .inl rfl
    | genrcon n =>
      by_cases hn : n.toNat < 1
      · obtain rfl : n = 0 := BitVec.eq_of_toNat_eq (by simpa using hn)
        exact .inr ⟨_, .head _, rfl, nofun, fun _ _ => ⟨rfl, Memory.read_nil⟩, nofun⟩
      · exact .inl (if_neg hn)
    | rotword => exact .inl rfl
    | _ => cases he
  | pf =>
    obtain rfl := eq_completed_of_pf he ht
    unfold PfBank.completed
    cases hres : pfOutcome i s.pf.a.toNat s.pf.b.toNat s.pf.p.toNat with
    | ok n => exact .inl rfl
    | error x =>
      refine .inr ⟨x, mem_commandErrors_of_pfOutcome he hres, rfl, ?_, ?_, fun _ => rfl⟩
      · rintro rfl; cases he
      · rintro n rfl; cases he

/-- R170: the code of each error. -/
theorem CommandError.code_ne_zero (x : CommandError) : x.code ≠ 0 := by
  cases x <;> decide

theorem CommandError.code_eq_five_iff (x : CommandError) : x.code = 5 ↔ x = .illegalCommand := by
  cases x <;> decide

/-- Every error has a code, so `ERR` is set exactly when `ECODE` is not 0 (R172). -/
theorem Status.raise_err_iff (st : Status) (x : CommandError) : (st.raise x).err = true ↔ (st.raise x).ecode ≠ 0 :=
  iff_of_true rfl x.code_ne_zero

theorem Status.complete_err_iff (st : Status) : st.complete.err = true ↔ st.complete.ecode ≠ 0 :=
  iff_of_false nofun fun h => h rfl

/-- The codes each engine gives (R111, R149). -/
theorem code_of_mem_commandErrors (i : Instr) : ∀ x ∈ commandErrors i,
    (i.engine = .gf → x.code = 1) ∧ (i.engine = .pf → x.code = 2 ∨ x.code = 3 ∨ x.code = 4) ∧ x ≠ .illegalCommand := by
  cases i with
  | genrcon n => simp [commandErrors, Instr.engine, CommandError.code]
  | _ => decide

/-! ### The turn of an engine -/

/-- The GF bank after the GF engine's turn. -/
def GfBank.turn (g : GfBank) : GfBank :=
  if g.status.busy then
    match decode .gf g.cmd with
    | .ok i => g.completed i
    | .error _ => { g with status := g.status.raise .illegalCommand }
  else g

/-- The PF bank after the PF engine's turn. -/
def PfBank.turn (q : PfBank W) : PfBank W :=
  if q.status.busy then
    match decode .pf q.cmd with
    | .ok i => q.completed i
    | .error _ => { q with status := q.status.raise .illegalCommand }
  else q

/-- The state after an engine's turn: one bank has changed, and by what it held. -/
def State.turned (s : State W) : Engine → State W
  | .gf => { s with gf := s.gf.turn }
  | .pf => { s with pf := s.pf.turn }

theorem State.turned_of_idle (hidle : (s.status e).busy = false) : s.turned e = s := by
  cases e with
  | gf => rw [State.turned, GfBank.turn, if_neg (by simpa using hidle)]
  | pf => rw [State.turned, PfBank.turn, if_neg (by simpa using hidle)]

/-- A busy engine's turn completes the command its word decodes to. -/
theorem State.turned_of_command (hbusy : (s.status e).busy = true) (hword : decode e (s.cmd e) = .ok i) :
    execAt i s = .next (s.turned e) := by
  have hi := (decode_eq_ok_iff.1 hword).1
  cases e with
  | gf => rw [State.cmd_gf] at hword; rw [execAt_gf hi, State.turned, GfBank.turn, if_pos (by exact hbusy), hword]
  | pf => rw [State.cmd_pf] at hword; rw [execAt_pf hi, State.turned, PfBank.turn, if_pos (by exact hbusy), hword]

theorem State.turned_of_illegal {x : Illegal} (hbusy : (s.status e).busy = true) (hword : decode e (s.cmd e) = .error x) :
    s.turned e = s.setStatus e ((s.status e).raise .illegalCommand) := by
  cases e with
  | gf => rw [State.cmd_gf] at hword; rw [State.turned, GfBank.turn, if_pos (by exact hbusy), hword]; rfl
  | pf => rw [State.cmd_pf] at hword; rw [State.turned, PfBank.turn, if_pos (by exact hbusy), hword]; rfl

/-- Every turn of an engine answers a next state (R12). -/
theorem engineTurn_eq (e : Engine) (s : State W) : engineTurn execAt e s = .next (s.turned e) := by
  by_cases hbusy : (s.status e).busy = true
  case neg => rw [engineTurn, if_neg hbusy, State.turned_of_idle (Bool.eq_false_iff.2 hbusy)]
  cases hword : decode e (s.cmd e) with
  | ok i => rw [engineTurn, if_pos hbusy, State.fetch, hword]; exact State.turned_of_command hbusy hword
  | error x => rw [engineTurn_illegal hbusy hword, State.turned_of_illegal hbusy hword]

/-- How a busy engine's turn leaves its status: without error, or with an error that is `IllegalCommand` exactly when the word is no
command. -/
theorem State.status_turned (hbusy : (s.status e).busy = true) :
    (∃ i, decode e (s.cmd e) = .ok i) ∧ (s.turned e).status e = (s.status e).complete ∨
    ∃ x, (s.turned e).status e = (s.status e).raise x ∧ (x = .illegalCommand ↔ ∃ y, decode e (s.cmd e) = .error y) := by
  cases hword : decode e (s.cmd e) with
  | ok i =>
    obtain ⟨rfl, -⟩ := decode_eq_ok_iff.1 hword
    obtain hok | ⟨x, hx, hraise, -⟩ := status_execAt (State.turned_of_command hbusy hword)
    · exact .inl ⟨⟨i, rfl⟩, hok⟩
    · exact .inr ⟨x, hraise, by simp [(code_of_mem_commandErrors i x hx).2.2]⟩
  | error x => exact .inr ⟨_, by rw [State.turned_of_illegal hbusy hword, State.status_setStatus], by simp⟩

/-- Settles O41: the turn by `State.status_turned`, the completion by `status_execAt`. -/
theorem errorsZeroTheOutputs : Obligations.ErrorsZeroTheOutputs := by
  refine AtEveryWidth.of_execAt fun W _ => ⟨fun e s hbusy => ⟨_, engineTurn_eq e s, ?turn⟩, fun i s t ht => ?command⟩
  case turn =>
    obtain ⟨⟨i, hword⟩, hok⟩ | ⟨x, hraise, hillegal⟩ := State.status_turned hbusy
    · rw [hok, hword]
      exact ⟨rfl, rfl, Status.complete_err_iff _, by simp⟩
    · rw [hraise, ← hillegal]
      exact ⟨rfl, rfl, Status.raise_err_iff _ x, by rw [Status.raise_ecode, x.code_eq_five_iff]⟩
  case command =>
    obtain hok | ⟨x, hx, hraise, hxtime, hgenrcon, hpf⟩ := status_execAt ht
    · have hecode {e : Engine} (he : i.engine = e) : (t.status e).ecode = 0 := by rw [← he, hok]; rfl
      rw [hok]
      exact ⟨rfl, rfl, Status.complete_err_iff _, fun he => .inl (hecode he), fun he => .inl (hecode he), nofun⟩
    · have hecode {e : Engine} (he : i.engine = e) : (t.status e).ecode = x.code := by rw [← he, hraise]; rfl
      obtain ⟨hcodeGf, hcodePf, -⟩ := code_of_mem_commandErrors i x hx
      rw [hraise]
      refine ⟨rfl, rfl, Status.raise_err_iff _ x, fun he => .inr ((hecode he).trans (hcodeGf he)),
        fun he => .inr ?_, fun _ => ⟨hxtime, hgenrcon, hpf, ?_, ?_⟩⟩
      · rw [← hecode he] at hcodePf
        exact hcodePf he
      · rintro rfl; cases hx
      · rintro rfl; cases hx

theorem eq_turned (ht : engineTurn execAt e s = .next t) : t = s.turned e :=
  Host.Outcome.next.inj (ht.symm.trans (engineTurn_eq e s))

/-- Settles O59: an engine's turn is a function of its own bank. -/
theorem enginesShareNoState : Obligations.EnginesShareNoState := by
  refine AtEveryWidth.of_execAt fun W _ => ⟨fun s t ht => ?gfFrame, fun s t ht => ?pfFrame, fun s s' t t' hbank ht ht' => ?gf,
    fun s s' t t' hbank ht ht' => ?pf⟩
  case gfFrame => obtain rfl := eq_turned ht; exact ⟨rfl, rfl⟩
  case pfFrame => obtain rfl := eq_turned ht; exact ⟨rfl, rfl⟩
  case gf => rw [eq_turned ht, eq_turned ht']; exact congrArg GfBank.turn hbank
  case pf => rw [eq_turned ht, eq_turned ht']; exact congrArg PfBank.turn hbank

/-- Settles O45: a word decodes to commands of its own engine only. -/
theorem stepRunsTheDecodedCommand : Obligations.StepRunsTheDecodedCommand :=
  AtEveryWidth.of_execAt fun _ _ _ _ _ _ hev hbusy hword => ⟨stepAt_command hev hbusy hword, (decode_eq_ok_iff.1 hword).1⟩

end Sys2Proof.Machine
end

section
/-! PROOFS of the family `other`, one step: what each event does to a state, the invariant (R28, R30), and who writes which register
(R34, R37, R40, R178). -/

namespace Sys2Proof.Machine

open Sys2Proof

variable {W : Nat} {s t : State W} {e : Engine}

/-! ### A step is an event that happens -/

/-- The state after an event. -/
def State.after (s : State W) : Event → State W
  | .reset => s.assertReset
  | .turn (.host n) => s.hostTurn n
  | .turn (.engine e) => s.turned e

theorem happen_eq (ev : Event) (s : State W) : happen execAt ev s = .next (s.after ev) := by
  cases ev with
  | reset => rfl
  | turn a =>
    cases a with
    | host n => rfl
    | engine e => exact engineTurn_eq e s

/-- Every step answers the state after the event that is taken. -/
theorem stepAt_eq (s : State W) : stepAt s = .next (s.takeEvent.2.after s.takeEvent.1) := happen_eq ..

theorem eq_after_of_stepAt (ht : stepAt s = .next t) : t = s.takeEvent.2.after s.takeEvent.1 :=
  Host.Outcome.next.inj (ht.symm.trans (stepAt_eq s))

/-- Settles O46 by `stepAt_eq`. -/
theorem everyStepAnswersANextState : Obligations.EveryStepAnswersANextState :=
  AtEveryWidth.of_execAt fun _ _ s => ⟨_, stepAt_eq s⟩

theorem stepAt_listed {ev : Event} {evs : List Event} (hev : s.events = ev :: evs) :
    stepAt s = .next (State.after { s with events := evs } ev) := by
  rw [stepAt_cons hev, happen_eq]

/-- An event is taken from the list before it happens; what happens lists none. -/
theorem State.after_events (s : State W) (ev : Event) : (s.after ev).events = s.events ∧ (s.after ev).tick = s.tick := by
  cases ev with
  | reset => exact ⟨rfl, rfl⟩
  | turn a =>
    cases a with
    | host n => exact s.hostTurn_keeps n
    | engine e => cases e <;> exact ⟨rfl, rfl⟩

/-! ### What an event leaves of a bank -/

/-- An engine's bank is the same in two states. -/
def State.SameBank (e : Engine) (s t : State W) : Prop := (e = .gf → t.gf = s.gf) ∧ (e = .pf → t.pf = s.pf)

theorem State.SameBank.refl (e : Engine) (s : State W) : State.SameBank e s s := ⟨fun _ => rfl, fun _ => rfl⟩

theorem State.SameBank.trans {u : State W} (h : State.SameBank e s t) (h' : State.SameBank e t u) : State.SameBank e s u :=
  ⟨fun he => (h'.1 he).trans (h.1 he), fun he => (h'.2 he).trans (h.2 he)⟩

theorem State.SameBank.status (h : State.SameBank e s t) : t.status e = s.status e := by
  cases e with
  | gf => exact congrArg GfBank.status (h.1 rfl)
  | pf => exact congrArg PfBank.status (h.2 rfl)

theorem State.sameBank_of_eq (hgf : t.gf = s.gf) (hpf : t.pf = s.pf) : State.SameBank e s t := ⟨fun _ => hgf, fun _ => hpf⟩

theorem State.sameBank_takeEvent (e : Engine) (s : State W) : State.SameBank e s s.takeEvent.2 :=
  State.sameBank_of_eq s.takeEvent_keeps.1 s.takeEvent_keeps.2.1

/-- The turn of one engine leaves the bank of the other (R184). -/
theorem State.sameBank_turned {e' : Engine} (hne : e' ≠ e) (s : State W) : State.SameBank e s (s.turned e') := by
  cases e' with
  | gf => exact ⟨fun he => absurd he.symm hne, fun _ => rfl⟩
  | pf => exact ⟨fun _ => rfl, fun he => absurd he.symm hne⟩

/-- A write changes the bank of its location only (R51). -/
theorem State.sameBank_writeLoc {l : Loc} (hl : l.bank ≠ e) (s : State W) (v : Word) : State.SameBank e s (s.writeLoc l v) := by
  cases l with
  | pfLimb x k => exact ⟨fun _ => by cases x <;> rfl, fun he => absurd he.symm hl⟩
  | pfCmd => exact ⟨fun _ => rfl, fun he => absurd he.symm hl⟩
  | gfCmd | gfIn => exact ⟨fun he => absurd he.symm hl, fun _ => rfl⟩
  | _ => exact State.SameBank.refl e s

/-- R37: a host writes to idle banks only. -/
theorem State.sameBank_hostTurn (hbusy : (s.status e).busy = true) (n : Nat) : State.SameBank e s (s.hostTurn n) := by
  obtain ⟨hgf, hpf⟩ | ⟨h, off, v, rest, l, -, -, -, -, hidle, hturn⟩ := s.hostTurn_banks n
  · exact State.sameBank_of_eq hgf hpf
  · have hl : l.bank ≠ e := by
      rintro rfl
      exact Bool.false_ne_true (hidle.symm.trans hbusy)
    rw [hturn]
    exact (State.sameBank_writeLoc hl s v).trans (State.sameBank_of_eq rfl rfl)

/-- R37: while an engine is busy, its bank changes by reset and by the engine's own turn only. -/
theorem State.sameBank_after (hbusy : (s.status e).busy = true) {ev : Event} (hreset : ev ≠ .reset)
    (hturn : ev ≠ .turn (.engine e)) : State.SameBank e s (s.after ev) := by
  cases ev with
  | reset => exact absurd rfl hreset
  | turn a =>
    cases a with
    | host n => exact State.sameBank_hostTurn hbusy n
    | engine e' => exact State.sameBank_turned (by rintro rfl; exact hturn rfl) s

/-- Settles O55: the event is taken and then happens, and neither touches the bank. -/
theorem busyBankStandsStill : Obligations.BusyBankStandsStill := by
  refine AtEveryWidth.of_execAt fun W _ s t e hbusy ht hreset hturn => ?_
  obtain rfl := eq_after_of_stepAt ht
  have htake := s.sameBank_takeEvent e
  rw [← htake.status] at hbusy
  exact htake.trans (State.sameBank_after hbusy hreset hturn)

/-! ### When a run has ended -/

/-- With nothing left to do in any script and both engines idle, no turn changes anything (R186, R206). -/
theorem State.after_of_ended (hended : s.ended) {ev : Event} (hreset : ev ≠ .reset) : s.after ev = s := by
  obtain ⟨hscripts, hgf, hpf⟩ := hended
  cases ev with
  | reset => exact absurd rfl hreset
  | turn a =>
    cases a with
    | host n =>
      cases hhost : s.hosts[n]? with
      | none => simp [State.after, State.hostTurn, hhost]
      | some h => simp [State.after, State.hostTurn, hhost, hscripts h (List.mem_of_getElem? hhost)]
    | engine e => exact State.turned_of_idle (by cases e <;> assumption)

/-- Settles O60 by `State.after_of_ended`. -/
theorem endedRunStandsStill : Obligations.EndedRunStandsStill := by
  refine AtEveryWidth.of_execAt fun W _ s t hended ht hreset => ?_
  have hkeeps := s.takeEvent_keeps
  have hended' : s.takeEvent.2.ended := by
    obtain ⟨hgf, hpf, hhosts⟩ := hkeeps
    rwa [State.ended, hgf, hpf, hhosts]
  obtain rfl := eq_after_of_stepAt ht
  rwa [State.after_of_ended hended' hreset]

/-! ### What a host's turn can do -/

/-- No write of a host reaches an output register (R40). -/
theorem State.writeLoc_outputs (s : State W) (l : Loc) (v : Word) :
    (s.writeLoc l v).gf.out = s.gf.out ∧ (s.writeLoc l v).gf.rclen = s.gf.rclen ∧
    (s.writeLoc l v).gf.rcbuf = s.gf.rcbuf ∧ (s.writeLoc l v).pf.r = s.pf.r := by
  cases l with
  | pfLimb x k => cases x <;> exact ⟨rfl, rfl, rfl, rfl⟩
  | _ => exact ⟨rfl, rfl, rfl, rfl⟩

theorem State.hostTurn_outputs (s : State W) (n : Nat) :
    (s.hostTurn n).gf.out = s.gf.out ∧ (s.hostTurn n).gf.rclen = s.gf.rclen ∧
    (s.hostTurn n).gf.rcbuf = s.gf.rcbuf ∧ (s.hostTurn n).pf.r = s.pf.r := by
  obtain ⟨hgf, hpf⟩ | ⟨h, off, v, rest, l, -, -, -, -, -, hturn⟩ := s.hostTurn_banks n
  · rw [hgf, hpf]; exact ⟨rfl, rfl, rfl, rfl⟩
  · rw [hturn]; exact s.writeLoc_outputs l v

/-- A write elsewhere than the command register of an engine leaves its status. -/
theorem State.status_writeLoc {l : Loc} (hl : l ≠ cmdLoc e) (s : State W) (v : Word) :
    (s.writeLoc l v).status e = s.status e := by
  cases e with
  | gf =>
    cases l with
    | gfCmd => exact absurd rfl hl
    | pfLimb x k => cases x <;> rfl
    | _ => rfl
  | pf =>
    cases l with
    | pfCmd => exact absurd rfl hl
    | pfLimb x k => cases x <;> rfl
    | _ => rfl

theorem State.status_answer (s : State W) (n : Nat) (h : HostPort) (r : Reply) (rest : List HostOp) (e : Engine) :
    (s.answer n h r rest).status e = s.status e := by
  cases e <;> rfl

theorem State.cmd_answer (s : State W) (n : Nat) (h : HostPort) (r : Reply) (rest : List HostOp) (e : Engine) :
    (s.answer n h r rest).cmd e = s.cmd e := by
  cases e <;> rfl

/-- A host's turn leaves the status of an engine, or starts a command on it by a write to its command register (R35, R37). -/
theorem State.status_hostTurn (hW : W ≤ 4096) (s : State W) (n : Nat) (e : Engine) :
    (s.hostTurn n).status e = s.status e ∨
    ∃ h c rest, s.hosts[n]? = some h ∧ h.script = .access (.write 32 (cmdLoc e).bits c) :: rest ∧
      (s.hostTurn n).cmd e = c ∧ (s.hostTurn n).status e = (s.status e).start := by
  obtain ⟨hgf, hpf⟩ | ⟨h, off, v, rest, l, hhost, hscript, hloc, -, -, hturn⟩ := s.hostTurn_banks n
  · exact .inl (State.sameBank_of_eq hgf hpf).status
  · rw [hturn, State.status_answer, State.cmd_answer]
    by_cases hl : l = cmdLoc e
    · subst hl
      right
      obtain ⟨-, hmap, hoff⟩ := locateAligned_some hloc
      obtain rfl : off = (cmdLoc e).bits := BitVec.eq_of_toNat_eq (hoff.trans (Loc.bits_toNat hW hmap).symm)
      rw [State.writeLoc_cmdLoc]
      exact ⟨h, v, rest, hhost, hscript, State.cmd_start .., State.status_start ..⟩
    · exact .inl (State.status_writeLoc hl s v)

/-! ### The legal states of a status register -/

theorem Status.reset_legal : Status.reset.legal := by
  unfold Status.legal; decide

theorem Status.start_legal (st : Status) : st.start.legal :=
  ⟨fun _ => ⟨rfl, rfl, rfl⟩, iff_of_false nofun fun h => h rfl, nofun, by simp⟩

theorem Status.complete_legal (st : Status) : st.complete.legal :=
  ⟨nofun, st.complete_err_iff, nofun, by simp⟩

theorem CommandError.toNat_code_le (x : CommandError) : x.code.toNat ≤ 5 := by
  cases x <;> decide

theorem Status.raise_legal (st : Status) (x : CommandError) : (st.raise x).legal :=
  ⟨nofun, st.raise_err_iff x, fun _ => rfl, x.toNat_code_le⟩

/-- The codes 1 to 5 are those of the five errors (R170). -/
theorem exists_code_eq {c : BitVec 3} (hpos : c ≠ 0) (hle : c.toNat ≤ 5) : ∃ x : CommandError, x.code = c := by
  obtain rfl | rfl | rfl | rfl | rfl : c = 1 ∨ c = 2 ∨ c = 3 ∨ c = 4 ∨ c = 5 := by revert c; decide
  · exact ⟨.invalidInput, rfl⟩
  · exact ⟨.divisionByZero, rfl⟩
  · exact ⟨.invalidInverse, rfl⟩
  · exact ⟨.domainError, rfl⟩
  · exact ⟨.illegalCommand, rfl⟩

/-- R28: a legal status is that of an engine that runs, that never ran, or that has ended without or with an error. -/
theorem Status.legal_cases {st : Status} (h : st.legal) :
    st = st.start ∨ st = Status.reset ∨ st = st.complete ∨ ∃ x, st = st.raise x := by
  obtain ⟨busy, done, err, ecode⟩ := st
  obtain ⟨hbusy, herr, hdone, hcode⟩ := h
  cases busy with
  | true => obtain ⟨rfl, rfl, rfl⟩ := hbusy rfl; exact .inl rfl
  | false =>
    cases err with
    | false =>
      obtain rfl : ecode = 0 := by simpa using herr
      cases done
      · exact .inr (.inl rfl)
      · exact .inr (.inr (.inl rfl))
    | true =>
      obtain rfl : done = true := hdone rfl
      obtain ⟨x, rfl⟩ := exists_code_eq (herr.1 rfl) hcode
      exact .inr (.inr (.inr ⟨x, rfl⟩))

theorem State.inv_iff (s : State W) : s.Inv ↔ (∀ e, (s.status e).legal) ∧ s.gf.bufferMatches :=
  ⟨fun ⟨hgf, hpf, hbuf⟩ => ⟨fun e => by cases e <;> assumption, hbuf⟩, fun ⟨hst, hbuf⟩ => ⟨hst .gf, hst .pf, hbuf⟩⟩

theorem State.readLoc_statusLoc (s : State W) (e : Engine) : s.readLoc (statusLoc e) = (s.status e).word := by
  cases e <;> rfl

/-- Settles O51: one value for each way a status can be legal. -/
theorem statusReadsOneOfEightValues : Obligations.StatusReadsOneOfEightValues := by
  intro W _ s e hinv
  have hlegal := (s.inv_iff.1 hinv).1 e
  rw [State.readLoc_statusLoc]
  have ⟨hbusy, herr, hdone, hcode⟩ := hlegal
  refine ⟨hbusy, herr, hdone, fun h => by simp [h] at hcode, fun h => by simp [h] at hcode, ?_⟩
  obtain h | h | h | ⟨x, h⟩ := Status.legal_cases hlegal
  · rw [h, Status.start_word]; decide
  · rw [h, Status.reset_word]; decide
  · rw [h, Status.complete_word]; decide
  · rw [h, Status.raise_word]; cases x <;> decide

/-! ### The invariant -/

/-- The buffer that GENRCON leaves is as R30 says. -/
theorem GfBank.bufferMatches_genrcon {g : GfBank} (hbuf : g.rcbuf = genrconBuffer g.rclen) : g.bufferMatches := by
  unfold GfBank.bufferMatches
  rw [hbuf, genrconBuffer]
  split
  case isTrue hzero => exact ⟨rfl, fun j h1 _ => by rw [Memory.read_nil, if_neg (by omega)]; rfl⟩
  case isFalse =>
    exact ⟨Memory.ofBytes_wf _ (rconBytes_length _).le, fun j h1 h2 => Memory.read_rconBytes _ h1 h2⟩

/-- The GF engine's turn leaves the buffer and its length, or writes both as GENRCON does. -/
theorem GfBank.turn_buffer (g : GfBank) :
    (g.turn.rclen = g.rclen ∧ g.turn.rcbuf = g.rcbuf) ∨ g.turn.rcbuf = genrconBuffer g.turn.rclen := by
  unfold GfBank.turn
  split
  case isFalse => exact .inl ⟨rfl, rfl⟩
  case isTrue =>
    split
    next i _ =>
      cases i with
      | genrcon n => exact .inr rfl
      | _ => exact .inl (g.completed_buffer nofun)
    next => exact .inl ⟨rfl, rfl⟩

/-- The invariant looks at the two statuses, the buffer and its length. -/
theorem State.inv_of_eq (hinv : s.Inv) (hstatus : ∀ e, (t.status e).legal) (hlen : t.gf.rclen = s.gf.rclen)
    (hbuf : t.gf.rcbuf = s.gf.rcbuf) : t.Inv := by
  refine t.inv_iff.2 ⟨hstatus, ?_⟩
  rw [GfBank.bufferMatches, hlen, hbuf]
  exact (s.inv_iff.1 hinv).2

theorem State.inv_of_reset (hg : s.gf = GfBank.reset) (hp : s.pf = PfBank.reset) : s.Inv := by
  refine s.inv_iff.2 ⟨fun e => ?_, GfBank.bufferMatches_genrcon (by rw [hg]; rfl)⟩
  rw [s.status_of_reset hg hp]
  exact Status.reset_legal

/-- Settles O49: the two banks are those of reset. -/
theorem invariantHoldsAtReset : Obligations.InvariantHoldsAtReset :=
  ⟨State.inv_of_reset rfl rfl, fun _ _ => State.inv_of_reset rfl rfl⟩

theorem State.inv_hostTurn (hW : W ≤ 4096) (hinv : s.Inv) (n : Nat) : (s.hostTurn n).Inv := by
  obtain ⟨-, hlen, hbuf, -⟩ := s.hostTurn_outputs n
  refine State.inv_of_eq hinv (fun e => ?_) hlen hbuf
  obtain h | ⟨_, _, _, -, -, -, h⟩ := s.status_hostTurn hW n e <;> rw [h]
  · exact (s.inv_iff.1 hinv).1 e
  · exact Status.start_legal _

theorem State.status_turned_legal (hlegal : ∀ e, (s.status e).legal) (e' e : Engine) : ((s.turned e').status e).legal := by
  by_cases hne : e' = e
  case neg => rw [(State.sameBank_turned hne s).status]; exact hlegal e
  subst hne
  cases hbusy : (s.status e').busy with
  | false => rw [State.turned_of_idle hbusy]; exact hlegal e'
  | true =>
    obtain ⟨-, h⟩ | ⟨x, h, -⟩ := State.status_turned hbusy
    · rw [h]; exact Status.complete_legal _
    · rw [h]; exact Status.raise_legal _ x

theorem State.inv_turned (hinv : s.Inv) (e' : Engine) : (s.turned e').Inv := by
  have hstatus := State.status_turned_legal (s.inv_iff.1 hinv).1 e'
  cases e' with
  | pf => exact State.inv_of_eq hinv hstatus rfl rfl
  | gf =>
    obtain ⟨hlen, hbuf⟩ | hbuf := s.gf.turn_buffer
    · exact State.inv_of_eq hinv hstatus hlen hbuf
    · exact (State.inv_iff _).2 ⟨hstatus, GfBank.bufferMatches_genrcon hbuf⟩

/-- Settles O50: an event keeps the invariant, and taking it changes neither bank. -/
theorem everyStepKeepsTheInvariant : Obligations.EveryStepKeepsTheInvariant := by
  refine AtEveryWidth.of_execAt fun W ⟨_, _, hW⟩ s t hinv ht => ?_
  obtain rfl := eq_after_of_stepAt ht
  have htake : s.takeEvent.2.Inv := by
    obtain ⟨hgf, hpf, -⟩ := s.takeEvent_keeps
    rwa [State.Inv, hgf, hpf]
  cases s.takeEvent.1 with
  | reset => exact State.inv_of_reset rfl rfl
  | turn a =>
    cases a with
    | host n => exact State.inv_hostTurn hW htake n
    | engine e => exact State.inv_turned htake e

/-! ### Who writes what -/

theorem GfBank.turn_operands (g : GfBank) : g.turn.cmd = g.cmd ∧ g.turn.input = g.input := by
  unfold GfBank.turn
  split
  case isFalse => exact ⟨rfl, rfl⟩
  case isTrue =>
    split
    next i _ => exact g.completed_operands i
    next => exact ⟨rfl, rfl⟩

theorem PfBank.turn_operands (q : PfBank W) : q.turn.cmd = q.cmd ∧ q.turn.a = q.a ∧ q.turn.b = q.b ∧ q.turn.p = q.p := by
  unfold PfBank.turn
  split
  case isFalse => exact ⟨rfl, rfl, rfl, rfl⟩
  case isTrue =>
    split
    next i _ => exact q.completed_operands i
    next => exact ⟨rfl, rfl, rfl, rfl⟩

/-- An engine's turn leaves the operand and command registers of both banks (R38). -/
theorem State.turned_operands (s : State W) (e : Engine) : (s.turned e).gf.cmd = s.gf.cmd ∧
    (s.turned e).gf.input = s.gf.input ∧ (s.turned e).pf.cmd = s.pf.cmd ∧ (s.turned e).pf.a = s.pf.a ∧
    (s.turned e).pf.b = s.pf.b ∧ (s.turned e).pf.p = s.pf.p := by
  cases e with
  | gf =>
    obtain ⟨hcmd, hinput⟩ := s.gf.turn_operands
    exact ⟨hcmd, hinput, rfl, rfl, rfl, rfl⟩
  | pf => exact ⟨rfl, rfl, s.pf.turn_operands⟩

/-- Settles O52: an event of another kind than the writers named leaves the register. -/
theorem registersHaveTheirWriters : Obligations.RegistersHaveTheirWriters := by
  refine AtEveryWidth.of_execAt fun W _ s t ht => ?_
  obtain rfl := eq_after_of_stepAt ht
  obtain ⟨hgf, hpf, -⟩ := s.takeEvent_keeps
  have hstatus (e : Engine) : s.status e = s.takeEvent.2.status e := (s.sameBank_takeEvent e).status.symm
  simp only [hstatus]
  rw [← hgf, ← hpf]
  generalize s.takeEvent.2 = u
  cases s.takeEvent.1 with
  | reset => simp
  | turn a =>
    cases a with
    | host n =>
      obtain ⟨hout, hlen, hbuf, hr⟩ := u.hostTurn_outputs n
      simp [State.after, hout, hlen, hbuf, hr]
    | engine e =>
      obtain ⟨hcmd, hinput, hpcmd, ha, hb, hp⟩ := u.turned_operands e
      refine ⟨by simp [State.after, hcmd, hinput, hpcmd, ha, hb, hp], fun hchange => .inr ?gf, fun hchange => .inr ?pf,
        fun e' hchange => .inr (.inl ?status)⟩
      case gf =>
        cases e with
        | gf => rfl
        | pf => simp [State.after, State.turned] at hchange
      case pf =>
        cases e with
        | gf => exact absurd rfl hchange
        | pf => rfl
      case status =>
        by_cases hne : e = e'
        · rw [hne]
        · exact absurd (State.sameBank_turned hne u).status hchange

/-- Settles O53: of the events, a host's turn by `State.status_hostTurn`, an engine's turn by its being idle or another's. -/
theorem errorsStandUntilTheNextCommand : Obligations.ErrorsStandUntilTheNextCommand := by
  refine AtEveryWidth.of_execAt fun W ⟨_, _, hW⟩ s t e hidle ht hchange => ?_
  obtain rfl := eq_after_of_stepAt ht
  obtain ⟨-, -, hhosts⟩ := s.takeEvent_keeps
  rw [← (s.sameBank_takeEvent e).status] at hidle hchange
  rw [← hhosts]
  generalize s.takeEvent.2 = u at *
  generalize s.takeEvent.1 = ev at *
  cases ev with
  | reset => exact .inl ⟨rfl, by rw [State.after, State.status_of_reset rfl rfl]; rfl⟩
  | turn a =>
    cases a with
    | host n =>
      obtain hsame | ⟨h, c, rest, hhost, hscript, hcmd, hstatus⟩ := u.status_hostTurn hW n e
      · exact absurd hsame hchange
      · exact .inr ⟨n, h, c, rest, rfl, hhost, hscript, hcmd, by rw [State.after, hstatus, Status.start_word]⟩
    | engine e' =>
      refine absurd ?_ hchange
      by_cases hne : e' = e
      · rw [State.after, hne, State.turned_of_idle hidle]
      · exact (State.sameBank_turned hne u).status

end Sys2Proof.Machine
end

section
/-! PROOFS of the family `other`, runs of several steps: a reset and the host's turn after it (R201), what stands between a command's
start and its completion (R36, R37, R60), the order of the engines (R34), and that every command completes (R212). -/

namespace Sys2Proof.Machine

open Sys2Proof

variable {W : Nat} {s t : State W} {e : Engine} {n : Nat} {h : HostPort} {rest : List HostOp} {evs : List Event}

/-! ### Two steps -/

theorem run_two {ev ev' : Event} (hev : s.events = ev :: ev' :: evs) :
    Host.Core.run (coreWith stepAt) 2 s =
      .next (State.after { State.after { s with events := ev' :: evs } ev with events := evs } ev') := by
  rw [run_succ 1 _ _ (stepAt_listed hev), run_succ 0 _ _ (stepAt_listed (State.after_events _ ev).1)]
  rfl

/-- Settles O58: each turn changes one bank, by what that bank holds. -/
theorem engineOrderDoesNotMatter : Obligations.EngineOrderDoesNotMatter := by
  refine AtEveryWidth.of_execAt fun W _ s evs => ?_
  have hgf := run_two (s := { s with events := .turn (.engine .gf) :: .turn (.engine .pf) :: evs }) rfl
  have hpf := run_two (s := { s with events := .turn (.engine .pf) :: .turn (.engine .gf) :: evs }) rfl
  exact ⟨_, hgf, hpf⟩

/-- R56 (3): a read of a location of an idle bank. -/
theorem stepAt_read_idle {l : Loc} (hW : W ≤ 4096) (hline : s.AtHostLine n (.access (.read 32 l.bits)) h rest evs)
    (hl : l.exists W = true) (hidle : (s.status l.bank).busy = false) :
    stepAt s = .next (s.Replied n (.value (s.readLoc l)) h rest evs) :=
  stepAt_read hline ((Access.target_read_iff hW).2 ⟨rfl, hl, Loc.bits_toNat hW hl⟩) (State.held_of_idle hidle)

/-- Where both banks are as reset leaves them, a read of any location is answered with 0 (R201). -/
theorem stepAt_read_of_reset {l : Loc} (hW : W ≤ 4096) (hg : s.gf = GfBank.reset) (hp : s.pf = PfBank.reset)
    (hline : s.AtHostLine n (.access (.read 32 l.bits)) h rest evs) (hl : l.exists W = true) :
    stepAt s = .next (s.Replied n (.value 0) h rest evs) := by
  have hidle : (s.status l.bank).busy = false := by rw [State.status_of_reset hg hp]; rfl
  rw [stepAt_read_idle hW hline hl hidle, State.readLoc_of_reset hg hp]

/-- Settles O48: the read is made on the reset state, where nothing is held and everything reads 0. -/
theorem resetAbandonsCommandsAndLiftsHolds : Obligations.ResetAbandonsCommandsAndLiftsHolds := by
  refine AtEveryWidth.of_execAt fun W ⟨_, _, hW⟩ => ⟨fun s evs hev => ?banks, fun s n h l rest evs hev hhost hscript hl => ?read⟩
  case banks => exact ⟨_, stepAt_reset hev, rfl, rfl, rfl, rfl⟩
  case read =>
    have hread := stepAt_read_of_reset (s := State.assertReset { s with events := .turn (.host n) :: evs }) hW rfl rfl
      ⟨rfl, hhost, hscript⟩ hl
    exact ⟨_, (run_succ 1 s _ (stepAt_reset hev)).trans (run_succ 0 _ _ hread), rfl⟩

/-! ### From a command's start to its completion -/

/-- An engine's turn leaves in its bank what the bank alone says. -/
theorem State.SameBank.turned (h : State.SameBank e s t) : State.SameBank e (s.turned e) (t.turned e) := by
  cases e with
  | gf => exact ⟨fun _ => congrArg GfBank.turn (h.1 rfl), nofun⟩
  | pf => exact ⟨nofun, fun _ => congrArg PfBank.turn (h.2 rfl)⟩

/-- R37, R38: events that are neither a reset nor the busy engine's turn leave its command to complete as if at once. -/
theorem exists_run_to_turn {rest : List Event} (hbusy : (s.status e).busy = true)
    (hev : s.events = evs ++ .turn (.engine e) :: rest) (hother : ∀ ev ∈ evs, ev ≠ .reset ∧ ev ≠ .turn (.engine e)) :
    ∃ t, Host.Core.run (coreWith stepAt) (evs.length + 1) s = .next t ∧ t.events = rest ∧
      State.SameBank e (s.turned e) t := by
  induction evs generalizing s with
  | nil =>
    have hsame : State.SameBank e s { s with events := rest } := State.sameBank_of_eq rfl rfl
    exact ⟨_, run_succ 0 _ _ (stepAt_listed hev), (State.after_events _ _).1, hsame.turned⟩
  | cons ev evs ih =>
    obtain ⟨⟨hreset, hturn⟩, hother⟩ := List.forall_mem_cons.1 hother
    have htake : State.SameBank e s { s with events := evs ++ .turn (.engine e) :: rest } := State.sameBank_of_eq rfl rfl
    have hsame := htake.trans (State.sameBank_after (by rwa [htake.status]) hreset hturn)
    obtain ⟨t, hrun, hrest, ht⟩ := ih (by rwa [hsame.status]) (State.after_events _ ev).1 hother
    exact ⟨t, (run_succ _ _ _ (stepAt_listed hev)).trans hrun, hrest, hsame.turned.trans ht⟩

/-- Settles O56: the run by `exists_run_to_turn`, the completion at once by `engineTurn_eq`. -/
theorem commandsLookAtomic : Obligations.CommandsLookAtomic := by
  refine AtEveryWidth.of_execAt fun W _ s e evs rest hbusy hev hother => ?_
  obtain ⟨t, hrun, hrest, hsame⟩ := exists_run_to_turn hbusy hev hother
  exact ⟨t, _, hrun, engineTurn_eq e s, hrest, hsame⟩

/-- After its turn an engine is idle and done (R36, R172). -/
theorem State.flags_turned (hbusy : (s.status e).busy = true) :
    ((s.turned e).status e).busy = false ∧ ((s.turned e).status e).done = true := by
  obtain ⟨-, h⟩ | ⟨x, h, -⟩ := State.status_turned hbusy <;> rw [h] <;> exact ⟨rfl, rfl⟩

/-- R37, R60: the held turns change nothing but the events (`stepAt_held`); after the completion the read is not held. -/
theorem exists_run_of_heldRead {m k : Nat} (hW : W ≤ 4096) (hk : k < Config.NL W)
    (hbusy : s.pf.status.busy = true)
    (hev : s.events = List.replicate m (.turn (.host n)) ++ .turn (.engine .pf) :: .turn (.host n) :: evs)
    (hhost : s.hosts[n]? = some h) (hscript : h.script = .access (.read 32 (Loc.pfLimb .r k).bits) :: rest) :
    ∃ t, Host.Core.run (coreWith stepAt) (m + 2) s = .next t ∧ t.pf = s.pf.turn ∧
      t.hosts = s.hosts.set n { script := rest, replies := h.replies ++ [.value (limb s.pf.turn.r k)] } := by
  have hl : (Loc.pfLimb .r k).exists W = true := decide_eq_true hk
  induction m generalizing s with
  | zero =>
    have hturn : stepAt s = .next { s with pf := s.pf.turn, events := .turn (.host n) :: evs } := stepAt_listed hev
    have hidle : s.pf.turn.status.busy = false := (State.flags_turned (e := .pf) hbusy).1
    have hread := stepAt_read_idle (s := { s with pf := s.pf.turn, events := .turn (.host n) :: evs }) hW
      ⟨rfl, hhost, hscript⟩ hl hidle
    exact ⟨_, (run_succ 1 s _ hturn).trans (run_succ 0 _ _ hread), rfl, rfl⟩
  | succ m ih =>
    have hline : s.AtHostLine n (.access (.read 32 (Loc.pfLimb .r k).bits)) h rest
        (List.replicate m (.turn (.host n)) ++ .turn (.engine .pf) :: .turn (.host n) :: evs) := ⟨hev, hhost, hscript⟩
    have ht := (Access.target_read_iff hW).2 ⟨rfl, hl, Loc.bits_toNat hW hl⟩
    have hheld : s.held (.pfLimb .r k) = true := (State.held_iff _).2 ⟨hbusy, nofun⟩
    obtain ⟨t, hrun, hbank⟩ := ih (s := { s with events := List.replicate m _ ++ _ }) hbusy rfl hhost
    exact ⟨t, (run_succ _ s _ (stepAt_held hline ht hheld)).trans hrun, hbank⟩

/-- Settles O57 by `exists_run_of_heldRead`. -/
theorem heldReadReturnsTheResult : Obligations.HeldReadReturnsTheResult := by
  refine AtEveryWidth.of_execAt fun W ⟨_, _, hW⟩ s n m k h rest evs hbusy hk hev hhost hscript => ?_
  obtain ⟨t, hrun, hpf, hhosts⟩ := exists_run_of_heldRead hW hk hbusy hev hhost hscript
  exact ⟨t, _, engineTurn_eq .pf s, hrun, hpf, hhosts⟩

/-! ### Every command completes -/

/-- Finitely many steps that leave the engine's bank lead to a state whose next event is the engine's turn or a reset. -/
def State.ReachesTurn (e : Engine) (s : State W) : Prop :=
  ∃ k u, Host.Core.run (coreWith stepAt) k s = .next u ∧ State.SameBank e s u ∧
    (u.takeEvent.1 = .turn (.engine e) ∨ u.takeEvent.1 = .reset)

theorem State.reachesTurn_of_step (hstep : stepAt s = .next t) (hsame : State.SameBank e s t) (h : t.ReachesTurn e) :
    s.ReachesTurn e := by
  obtain ⟨k, u, hrun, hbank, hev⟩ := h
  exact ⟨k + 1, u, (run_succ k s t hstep).trans hrun, hsame.trans hbank, hev⟩

/-- The listed events are used up one by one: the turn comes if it is among them, or if it comes from where they end. -/
theorem State.reachesTurn_of_events (hev : s.events = evs) (hbusy : (s.status e).busy = true)
    (h : .turn (.engine e) ∈ evs ∨
      ∀ u : State W, u.events = [] → u.tick = s.tick → (u.status e).busy = true → u.ReachesTurn e) : s.ReachesTurn e := by
  induction evs generalizing s with
  | nil => exact h.resolve_left (List.not_mem_nil) s hev rfl hbusy
  | cons ev evs ih =>
    by_cases hnow : ev = .turn (.engine e) ∨ ev = .reset
    · exact ⟨0, s, rfl, State.SameBank.refl e s, by rwa [State.takeEvent_cons hev]⟩
    · obtain ⟨hturn, hreset⟩ := not_or.1 hnow
      have htake : State.SameBank e s { s with events := evs } := State.sameBank_of_eq rfl rfl
      have hsame := htake.trans (State.sameBank_after (by rwa [htake.status]) hreset hturn)
      obtain ⟨hevents, htick⟩ := State.after_events { s with events := evs } ev
      refine State.reachesTurn_of_step (stepAt_listed hev) hsame (ih hevents (by rwa [hsame.status]) ?_)
      rw [htick]
      exact h.imp_left fun hmem => (List.mem_cons.1 hmem).resolve_left (Ne.symm hturn)

/-- The state with the next block of events listed (log 11). -/
def State.listed (s : State W) : State W :=
  { s with events := Config.between s.tick ++ [.turn (.engine (Config.due s.tick))], tick := s.tick + 1 }

theorem State.takeEvent_listed (hnil : s.events = []) : s.listed.takeEvent = s.takeEvent := by
  obtain ⟨ev, evs, htake, hblock⟩ := State.takeEvent_nil hnil
  rw [htake, State.takeEvent_cons (s := s.listed) hblock.symm]
  rfl

/-- Listing the block that comes next anyway changes no run. -/
theorem State.reachesTurn_of_listed (hnil : s.events = []) (h : s.listed.ReachesTurn e) : s.ReachesTurn e := by
  have htake := State.takeEvent_listed hnil
  obtain ⟨k, u, hrun, hbank, hev⟩ := h
  cases k with
  | zero =>
    cases hrun
    exact ⟨0, s, rfl, State.SameBank.refl e s, by rwa [← htake]⟩
  | succ k =>
    refine ⟨k + 1, u, ?_, hbank, hev⟩
    rw [← hrun, run_succ k _ _ (stepAt_eq s), run_succ k _ _ (stepAt_eq s.listed), htake]

/-- Of two blocks that follow each other one owes its turn to the engine (R212). -/
theorem due_or_due_succ (e : Engine) (k : Nat) : Config.due k = e ∨ Config.due (k + 1) = e := by
  obtain ⟨hk, hk'⟩ | ⟨hk, hk'⟩ : k % 2 = 0 ∧ ¬ (k + 1) % 2 = 0 ∨ ¬ k % 2 = 0 ∧ (k + 1) % 2 = 0 := by omega
  · rw [Config.due, Config.due, if_pos hk, if_neg hk']; cases e <;> simp
  · rw [Config.due, Config.due, if_neg hk, if_pos hk']; cases e <;> simp

theorem State.reachesTurn_of_due (hnil : s.events = []) (hdue : Config.due s.tick = e) (hbusy : (s.status e).busy = true) :
    s.ReachesTurn e :=
  State.reachesTurn_of_listed hnil (State.reachesTurn_of_events (s := s.listed) rfl hbusy (.inl (by simp [State.listed, hdue])))

theorem State.reachesTurn_of_nil (hnil : s.events = []) (hbusy : (s.status e).busy = true) : s.ReachesTurn e := by
  obtain hdue | hdue := due_or_due_succ e s.tick
  · exact State.reachesTurn_of_due hnil hdue hbusy
  · refine State.reachesTurn_of_listed hnil (State.reachesTurn_of_events (s := s.listed) rfl hbusy (.inr ?_))
    intro u hu htick hb
    exact State.reachesTurn_of_due hu (by rwa [htick]) hb

/-- The turn of a busy engine comes: from the listed events, from the block after them, or from the block after that. -/
theorem State.reachesTurn (hbusy : (s.status e).busy = true) : s.ReachesTurn e :=
  State.reachesTurn_of_events rfl hbusy (.inr fun _ hu _ hb => State.reachesTurn_of_nil hu hb)

/-- Settles O54: the turn ends the command by `State.flags_turned` and comes by `State.reachesTurn`. -/
theorem everyCommandCompletes : Obligations.EveryCommandCompletes := by
  refine AtEveryWidth.of_execAt fun W _ => ⟨fun s e evs hev hbusy => ?enabled, fun s e hbusy => ?comes⟩
  case enabled =>
    rw [← s.status_withEvents (evs := evs)] at hbusy
    obtain ⟨hidle, hdone⟩ := State.flags_turned hbusy
    exact ⟨_, stepAt_listed hev, hidle, hdone, (State.after_events _ _).1⟩
  case comes =>
    obtain ⟨k, u, hrun, hsame, hev⟩ := State.reachesTurn hbusy
    refine ⟨k, u, _, hrun, hsame.1, hsame.2, hev, stepAt_eq u, ?_⟩
    have hbusy' : (u.takeEvent.2.status e).busy = true := by
      rwa [(u.sameBank_takeEvent e).status, hsame.status]
    obtain hev | hev := hev <;> rw [hev]
    · obtain ⟨hidle, hdone⟩ := State.flags_turned hbusy'
      exact ⟨hidle, fun _ => hdone⟩
    · rw [State.after, State.status_of_reset rfl rfl]
      exact ⟨rfl, nofun⟩

end Sys2Proof.Machine
end

section
/-! PROOFS of the family `other`, the host's view of the registers: limbs (R54), operand writes (R57), reads (R56) and `WAIT` (R90). -/

namespace Sys2Proof.Machine

open Sys2Proof

variable {W : Nat} {s : State W} {n : Nat} {h : HostPort} {rest : List HostOp} {evs : List Event}

/-! ### Limbs -/

theorem toNat_limb (x : PfWord W) (k : Nat) : (limb x k).toNat = x.toNat / 2 ^ (32 * k) % 2 ^ 32 := by
  rw [limb, BitVec.extractLsb'_toNat, Nat.shiftRight_eq_div_pow]

/-- The first `n` digits of a number in base `b` make up its remainder modulo `b^n`. -/
theorem sum_digits_eq_mod (a b n : Nat) : ∑ k ∈ Finset.range n, a / b ^ k % b * b ^ k = a % b ^ n := by
  induction n with
  | zero => simp [Nat.mod_one]
  | succ n ih => rw [Finset.sum_range_succ, ih, Nat.mod_pow_succ, Nat.mul_comm]

/-- R54: a register is the sum of its limbs, its digits in base `2^32`. -/
theorem toNat_eq_sum_limbs (hW : 32 ∣ W) (x : PfWord W) :
    x.toNat = ∑ k ∈ Finset.range (Config.NL W), (limb x k).toNat * 2 ^ (32 * k) := by
  simp only [toNat_limb, pow_mul]
  rw [sum_digits_eq_mod, ← pow_mul, Nat.mul_div_cancel' hW, Nat.mod_eq_of_lt x.isLt]

/-- The bits of limb `k` come from the value written, the others from the register. -/
theorem getLsbD_setLimb (x : PfWord W) (k : Nat) (v : Word) {i : Nat} (hi : i < W) :
    (setLimb x k v).getLsbD i = if 32 * k ≤ i ∧ i < 32 * k + 32 then v.getLsbD (i - 32 * k) else x.getLsbD i := by
  have hmask : (0xFFFFFFFF#32) = BitVec.allOnes 32 := by decide
  simp only [setLimb, hmask, BitVec.getLsbD_or, BitVec.getLsbD_and, BitVec.getLsbD_not, BitVec.getLsbD_shiftLeft,
    BitVec.getLsbD_setWidth, BitVec.getLsbD_allOnes, hi]
  by_cases hlow : i < 32 * k
  · simp [hlow]
  by_cases hhigh : i - 32 * k < 32
  · have hin : 32 * k ≤ i ∧ i < 32 * k + 32 := by omega
    have hlt : i - 32 * k < W := by omega
    simp [hlow, hhigh, hin, hlt]
  · have hout : ¬ (32 * k ≤ i ∧ i < 32 * k + 32) := by omega
    simp [hhigh, hout, BitVec.getLsbD_of_ge v (i - 32 * k) (by omega)]

theorem limb_setLimb_same (hW : 32 ∣ W) (x : PfWord W) {k : Nat} (hk : k < Config.NL W) (v : Word) :
    limb (setLimb x k v) k = v := by
  apply BitVec.eq_of_getLsbD_eq
  intro j hj
  have hi : 32 * k + j < W := by have : k < W / 32 := hk; omega
  rw [limb, BitVec.getLsbD_extractLsb', getLsbD_setLimb x k v hi, if_pos (by omega), Nat.add_sub_cancel_left]
  simp [hj]

theorem limb_setLimb_ne (x : PfWord W) {k l : Nat} (hl : l ≠ k) (v : Word) : limb (setLimb x k v) l = limb x l := by
  apply BitVec.eq_of_getLsbD_eq
  intro j hj
  rw [limb, limb, BitVec.getLsbD_extractLsb', BitVec.getLsbD_extractLsb']
  by_cases hi : 32 * l + j < W
  · rw [getLsbD_setLimb x k v hi, if_neg (by omega)]
  · rw [BitVec.getLsbD_of_ge _ _ (by omega), BitVec.getLsbD_of_ge _ _ (by omega)]

/-- R54 as arithmetic: of the sum of the limbs one term is replaced. -/
theorem toNat_setLimb (hW : 32 ∣ W) (x : PfWord W) {k : Nat} (hk : k < Config.NL W) (v : Word) :
    (setLimb x k v).toNat = x.toNat - (limb x k).toNat * 2 ^ (32 * k) + v.toNat * 2 ^ (32 * k) := by
  have hsplit (y : PfWord W) : (limb y k).toNat * 2 ^ (32 * k) +
      ∑ l ∈ (Finset.range (Config.NL W)).erase k, (limb y l).toNat * 2 ^ (32 * l) = y.toNat := by
    rw [toNat_eq_sum_limbs hW y]
    exact Finset.add_sum_erase _ (fun l => (limb y l).toNat * 2 ^ (32 * l)) (Finset.mem_range.2 hk)
  have hothers : ∑ l ∈ (Finset.range (Config.NL W)).erase k, (limb (setLimb x k v) l).toNat * 2 ^ (32 * l) =
      ∑ l ∈ (Finset.range (Config.NL W)).erase k, (limb x l).toNat * 2 ^ (32 * l) :=
    Finset.sum_congr rfl fun l hl => by rw [limb_setLimb_ne x (Finset.ne_of_mem_erase hl)]
  have hold := hsplit x
  have hnew := hsplit (setLimb x k v)
  rw [hothers, limb_setLimb_same hW x hk] at hnew
  omega

/-- Settles O12 by the lemmas above. -/
theorem limbsMakeUpTheRegister : Obligations.LimbsMakeUpTheRegister := fun _ ⟨hW, _, _⟩ x =>
  ⟨toNat_limb x, toNat_eq_sum_limbs hW x, fun _ v hk =>
    ⟨limb_setLimb_same hW x hk v, fun _ hl => limb_setLimb_ne x hl v, toNat_setLimb hW x hk v⟩⟩

/-! ### Operand writes -/

/-- R57 (3): a write to a writable location of an idle bank. -/
theorem stepAt_write_idle {off : BitVec 12} {l : Loc} {v : Word} (hW : W ≤ 4096)
    (hline : s.AtHostLine n (.access (.write 32 off v)) h rest evs) (hl : l.exists W = true) (hw : l.writable = true)
    (ho : off.toNat = l.offset) (hidle : (s.status l.bank).busy = false) :
    stepAt s = .next ((s.writeLoc l v).Replied n .written h rest evs) :=
  stepAt_write hline (Access.target_write hW hl hw ho) (State.held_of_idle hidle)

theorem State.pfReg_writeLoc_ne {x y : PfReg} (hy : y ≠ x) (s : State W) (k : Nat) (v : Word) :
    (s.writeLoc (.pfLimb x k) v).pfReg y = s.pfReg y := by
  cases x <;> cases y <;> simp [State.writeLoc, State.pfReg] at hy ⊢

/-- Settles O10: the step is the write of `State.writeLoc`, the number `toNat_setLimb`'s. -/
theorem operandWriteReplacesRegisterOrLimb : Obligations.OperandWriteReplacesRegisterOrLimb := by
  refine AtEveryWidth.of_execAt fun W ⟨h32, _, hW⟩ => ⟨fun s n h v rest evs hline hidle => ?gfIn,
    fun s n h off k v rest evs hline hk hidle => ?windows, fun s n h x k v rest evs hline hx hk hidle => ?byName⟩
  case gfIn => exact stepAt_write_idle (l := .gfIn) hW hline rfl rfl rfl hidle
  case windows =>
    have hmap (x : PfReg) : (Loc.pfLimb x k).exists W = true := decide_eq_true hk
    exact ⟨fun ho => ⟨_, toNat_setLimb h32 s.pf.a hk v, stepAt_write_idle hW hline (hmap .a) rfl ho hidle⟩,
      fun ho => ⟨_, toNat_setLimb h32 s.pf.b hk v, stepAt_write_idle hW hline (hmap .b) rfl ho hidle⟩,
      fun ho => ⟨_, toNat_setLimb h32 s.pf.p hk v, stepAt_write_idle hW hline (hmap .p) rfl ho hidle⟩⟩
  case byName =>
    have hmap : (Loc.pfLimb x k).exists W = true := decide_eq_true hk
    have hw : (Loc.pfLimb x k).writable = true := by simpa [Loc.writable] using hx
    refine ⟨_, stepAt_write_idle hW hline hmap hw (Loc.bits_toNat hW hmap) hidle, ?_⟩
    have hnumber := toNat_setLimb h32 (s.pfReg x) hk v
    cases x with
    | r => exact absurd rfl hx
    | _ =>
      exact ⟨rfl, rfl, rfl, rfl, rfl, fun y hy => State.pfReg_writeLoc_ne hy s k v, hnumber⟩

/-! ### Reads -/

/-- R27: where each field of a status register is read. -/
theorem Status.word_fields (q : Status) : q.word.getLsbD 0 = q.busy ∧ q.word.getLsbD 1 = q.done ∧ q.word.getLsbD 2 = q.err ∧
    q.word.getLsbD 3 = false ∧ q.word.extractLsb' 4 3 = q.ecode ∧ q.word.extractLsb' 7 25 = 0#25 := by
  have hcode (i : Nat) : q.word.getLsbD (i + 4) = q.ecode.getLsbD i := by
    simp only [Status.word, BitVec.getLsbD_append, BitVec.getLsbD_ofBool, BitVec.getLsbD_zero]
    by_cases hi : i < 3
    · simp [hi]
    · simp [hi, BitVec.getLsbD_of_ge q.ecode i (by omega)]
  refine ⟨?_, ?_, ?_, ?_, ?ecode, ?high⟩
  case ecode =>
    ext i hi
    rw [← BitVec.getLsbD_eq_getElem, BitVec.getLsbD_extractLsb', Nat.add_comm 4, hcode]
    simp [hi]
  case high =>
    ext i hi
    rw [← BitVec.getLsbD_eq_getElem, BitVec.getLsbD_extractLsb', show 7 + i = i + 3 + 4 by omega, hcode]
    simp
  all_goals
    simp only [Status.word, BitVec.getLsbD_append, BitVec.getLsbD_ofBool]
    simp

/-- R29: bits 31:8 of `GF_RCLEN` read 0. -/
theorem rclen_word_fields (n : BitVec 8) : (n.setWidth 32).extractLsb' 0 8 = n ∧ (n.setWidth 32).extractLsb' 8 24 = 0#24 := by
  constructor
  · ext i hi
    simp [show i < 32 by omega, BitVec.getLsbD_eq_getElem hi]
  · ext i hi
    simp

/-- Settles O14: the fields of a status and of the length by their lemmas, the rest by `State.readLoc`. -/
theorem readsReturnTheirRegisters : Obligations.ReadsReturnTheirRegisters := fun _ _ s =>
  ⟨rfl, rfl, rfl, rfl, fun _ => ⟨rfl, rfl, rfl, rfl⟩, rfl, rfl, Status.word_fields, (rclen_word_fields s.gf.rclen).1,
    (rclen_word_fields s.gf.rclen).2, rfl, rfl, rfl, rfl, rfl, rfl, rfl, rfl, rfl, rfl, rfl, rfl⟩

/-- At `WAIT` the step is one poll (log 16). -/
theorem stepAt_wait {e : Engine} (hline : s.AtHostLine n (.wait e) h rest evs) :
    stepAt s = .next (State.hostWait { s with events := evs } n h e rest) := by
  obtain ⟨hev, hhost, hscript⟩ := hline
  calc stepAt s = .next (State.hostTurn { s with events := evs } n) := stepAt_cons hev
    _ = _ := congrArg Host.Outcome.next (State.hostTurn_at (s := { s with events := evs }) hhost hscript)

/-- Settles O15: bit 0 of what a poll reads is `BUSY`. -/
theorem waitPollsTheStatus : Obligations.WaitPollsTheStatus := by
  refine AtEveryWidth.of_execAt fun W _ s n h e rest evs hline => ?_
  rw [stepAt_wait hline, State.hostWait, State.readLoc_withEvents, State.readLoc_statusLoc, (Status.word_fields _).1]
  rfl

end Sys2Proof.Machine
end

section
/-! PROOFS of the family `other`, functions of the engines: the reduction network of `xtime` (R102), the reference iteration of the
inverse (R140) and the shorter search of ISPRIME (R147). -/

namespace Sys2Proof.Machine

open Sys2Proof

/-- Every bit but bit 0: the bit below, and bit 7 where the constant 0x1B has a bit. -/
theorem getLsbD_succ_xtime (v : Byte) {i : Nat} (hi : i + 1 < 8) :
    (xtime v).getLsbD (i + 1) = (v.getLsbD i ^^ (v.getLsbD 7 && (0x1B#8).getLsbD (i + 1))) := by
  rw [xtime_eq_shiftLeft_xor, BitVec.getLsbD_xor, getLsbD_shiftLeft_one v hi]
  cases v.getLsbD 7 <;> simp

/-- Settles O16: bits 1, 3 and 4 are those of the constant. -/
theorem xtimeIsTheXorNetwork : Obligations.XtimeIsTheXorNetwork := by
  intro v
  refine ⟨getLsbD_zero_xtime v, ?_, ?_, ?_, ?_, ?_, ?_, ?_⟩
  all_goals
    rw [getLsbD_succ_xtime v (by decide)]
    simp

/-- Settles O32: the gcd by `euclid_start`, the traces by evaluation. -/
theorem euclidEndsWithTheGcd : Obligations.EuclidEndsWithTheGcd := by
  refine ⟨fun a p hp => (euclid_start a p hp).1, fun a p hp ha => ?zero, by decide, by decide, by decide⟩
  rw [(euclid_start a p hp).1, ha, Nat.gcd_zero_left]

/-- Settles O37: `isprime` tells the primes, and a number that is not prime has a divisor up to its root. -/
theorem isprimeNeedsDivisorsToTheRootOnly : Obligations.IsprimeNeedsDivisorsToTheRootOnly := by
  intro p
  have hprime : isprime p = 1 ↔ p.Prime := by rw [isprime_eq]; split <;> simp [*]
  rw [hprime, Nat.prime_def_le_sqrt]
  simp only [Nat.le_sqrt, Nat.dvd_iff_mod_eq_zero, ne_eq]

end Sys2Proof.Machine
end
